-- ==== Sys2Proof/Word.lean ====
section
/-! DEFINITION. The widths of MSWS-CORE (00_scope R7, R9): plain bit vectors, bit 0 the least significant.
The primitives `add64`, `mul64`, `neg64`, `udiv`, `umod` of 00_scope R12 are `+`, `*`, unary `-`, `/`, `%` of
`BitVec 64`: unsigned, modulo 2^64, no carry and no flag. -/

namespace Sys2Proof

/-- A 64-bit register or operand (00_scope R7: "register width 64 bits"). -/
abbrev Word := BitVec 64

/-- A 32-bit output, accumulator or half of a seed (00_scope R7). -/
abbrev Word32 := BitVec 32

/-- A command byte (30_encoding R70). -/
abbrev Byte := BitVec 8

/-- A nibble, "a 4-bit unit, one hexadecimal digit" (00_scope R10). -/
abbrev Nibble := BitVec 4

end Sys2Proof
end

