-- ==== Sys2Proof/Syntax.lean ====
section
/-! DEFINITION. The fourteen commands of 30_encoding R72, one constructor a row of the opcode map. A format `D`
command carries its 64-bit operand; a format `Z` command carries nothing, because it ignores `cmd_data` (R71). -/

namespace Sys2Proof

/-- A command of MSWS-CORE (30_encoding R72, R73). -/
inductive Instr where
  /-- `STEP` (40_core_generator R99). -/
  | step
  /-- `LDX v` (R100). -/
  | ldx (v : Word)
  /-- `LDW v` (R101). -/
  | ldw (v : Word)
  /-- `LDS v` (R102). -/
  | lds (v : Word)
  /-- `INIT v` (R103). -/
  | init (v : Word)
  /-- `RDX` (42_system R160). -/
  | rdx
  /-- `RDW` (R161). -/
  | rdw
  /-- `RDS` (R162). -/
  | rds
  /-- `RDSEED` (R163). -/
  | rdseed
  /-- `RDSTAT` (R164). -/
  | rdstat
  /-- `DERIVE n` (41_seed_derivation R138). -/
  | derive (n : Word)
  /-- `RSEED` (R139). -/
  | rseed
  /-- `INITS` (40_core_generator R104). -/
  | inits
  /-- `CLRERR` (42_system R165). -/
  | clrerr
  deriving DecidableEq, Repr

end Sys2Proof
end

