-- ==== Sys2Proof/WellFormed.lean ====
section
/-! DEFINITION. What is checked of a command. The only check the spec makes is on the command byte (30_encoding R72,
R74); an operand may be any 64-bit value and is never checked (R73), so every term of `Instr` is well formed. -/

namespace Sys2Proof

/-- The fourteen command bytes, in the order of the opcode map (30_encoding R72). -/
def legalBytes : List Byte :=
  [0x10#8, 0x20#8, 0x21#8, 0x22#8, 0x23#8, 0x30#8, 0x31#8, 0x32#8, 0x33#8, 0x34#8, 0x40#8, 0x41#8, 0x50#8, 0x60#8]

/-- A presented command is well formed exactly when its byte is one of the fourteen (30_encoding R74, R75). -/
def wellFormedByte (b : Byte) : Bool := legalBytes.contains b

/-- Well-formedness of a command as syntax: "any value" is allowed in every operand (30_encoding R73). -/
def Instr.wellFormed : Instr → Bool
  | .step => true
  | .ldx _ => true
  | .ldw _ => true
  | .lds _ => true
  | .init _ => true
  | .rdx => true
  | .rdw => true
  | .rds => true
  | .rdseed => true
  | .rdstat => true
  | .derive _ => true
  | .rseed => true
  | .inits => true
  | .clrerr => true

end Sys2Proof
end

