-- ==== Sys2Proof/Decode.lean ====
section
/-! DEFINITION. The decoder and the encoder of 30_encoding R72 and R80, total on every byte and operand. -/

namespace Sys2Proof

/-- What decoding answers: one of the fourteen commands, or `ILLEGAL` (30_encoding R80). -/
inductive Decoded where
  /-- The byte selects this command. -/
  | command (i : Instr)
  /-- One of the 242 illegal bytes (30_encoding R74); accepting it raises `ILL`. -/
  | illegal
  deriving DecidableEq, Repr

/-- `decode(b, d)` (30_encoding R80). It depends on the byte alone; the operand is only carried along. -/
def decode (b : Byte) (d : Word) : Decoded :=
  if b = 0x10#8 then .command .step
  else if b = 0x20#8 then .command (.ldx d)
  else if b = 0x21#8 then .command (.ldw d)
  else if b = 0x22#8 then .command (.lds d)
  else if b = 0x23#8 then .command (.init d)
  else if b = 0x30#8 then .command .rdx
  else if b = 0x31#8 then .command .rdw
  else if b = 0x32#8 then .command .rds
  else if b = 0x33#8 then .command .rdseed
  else if b = 0x34#8 then .command .rdstat
  else if b = 0x40#8 then .command (.derive d)
  else if b = 0x41#8 then .command .rseed
  else if b = 0x50#8 then .command .inits
  else if b = 0x60#8 then .command .clrerr
  else .illegal

/-- The class `opc`, bits 7:4 of a command byte (30_encoding R70). -/
def opcField (b : Byte) : BitVec 4 := b.extractLsb' 4 4

/-- The selector `sel`, bits 3:0 of a command byte (30_encoding R70). -/
def selField (b : Byte) : BitVec 4 := b.extractLsb' 0 4

/-- A command byte from its two fields, `opc` above `sel` (30_encoding R70). -/
def commandByte (opc sel : BitVec 4) : Byte := opc ++ sel

/-- The command byte and the operand of a command, written from the `opc` and `sel` columns of the opcode map
(30_encoding R72). A format `Z` command's operand is written as zeros, "although any value encodes the same command"
(R78). -/
def encode : Instr → Byte × Word
  | .step => (commandByte 1#4 0#4, 0#64)
  | .ldx v => (commandByte 2#4 0#4, v)
  | .ldw v => (commandByte 2#4 1#4, v)
  | .lds v => (commandByte 2#4 2#4, v)
  | .init v => (commandByte 2#4 3#4, v)
  | .rdx => (commandByte 3#4 0#4, 0#64)
  | .rdw => (commandByte 3#4 1#4, 0#64)
  | .rds => (commandByte 3#4 2#4, 0#64)
  | .rdseed => (commandByte 3#4 3#4, 0#64)
  | .rdstat => (commandByte 3#4 4#4, 0#64)
  | .derive n => (commandByte 4#4 0#4, n)
  | .rseed => (commandByte 4#4 1#4, 0#64)
  | .inits => (commandByte 5#4 0#4, 0#64)
  | .clrerr => (commandByte 6#4 0#4, 0#64)

/-- The command byte of an instruction numbered as the opcode table numbers it: bits 7:0 of the first `nbits` bits. -/
def tableByte (nbits w : Nat) : Byte := BitVec.ofNat 8 (w % 2 ^ nbits)

/-- The operand beside it: the bits above the command byte. The table gives the operand no bits, so it is zero for
every row (30_encoding R70: the operand "travels on its own port"). -/
def tableOperand (nbits w : Nat) : Word := BitVec.ofNat 64 (w % 2 ^ nbits / 2 ^ 8)

/-- The command the decoder reads from an opcode-table word, if the byte is legal. -/
def decodeTableWord (nbits w : Nat) : Option Instr :=
  match decode (tableByte nbits w) (tableOperand nbits w) with
  | .command i => some i
  | .illegal => none

end Sys2Proof
end

