-- ==== Sys2Proof/Config.lean ====
section
/-! DEFINITION. What the hardware fixes and the spec leaves open: the table `SCONST` (00_scope R6, 20_memory R50).
The spec allows a model to assume exactly this of it: 30 entries, each 64 bits wide, each odd. -/

namespace Sys2Proof

/-- The address space of the table: indices 0 to 29 (20_memory R50). -/
abbrev TableIndex := Fin 30

/-- A content of the table space: one 64-bit entry for each index (20_memory R50, R56). -/
abbrev Table := TableIndex → Word

/-- Bits 63:1 of the 30 entries of `SCONST`: uninterpreted, since the spec does not give them (00_scope R6, log entry 5). -/
opaque Config.sconstHigh : TableIndex → BitVec 63

/-- `SCONST`: "a fixed ordered sequence of 30 pre-chosen 64-bit odd constants" (00_scope R6). Bit 0 is 1 and nothing
else is known of an entry, so every table the spec allows is some choice of `Config.sconstHigh` (log entry 5). -/
def Config.sconst : Table := fun i => Config.sconstHigh i ++ 1#1

end Sys2Proof
end

