-- ==== Sys2Proof/Machine/State.lean ====
section
/-! DEFINITION. The state of one MSWS-CORE block (10_state R20), its ports (R32 to R34), and the outside world as a
step sees it (R35 (b) to (d)). Plain data. Every reset value is that of 10_state R36. -/

namespace Sys2Proof.Machine

/-- `PHASE`, the control state of the sequencer (10_state R31). The values 5 to 7 "are never reached", and the spec
allows an enumeration. -/
inductive Phase where
  /-- Ready for a command. -/
  | idle
  /-- An `RSEED` waits for the entropy source. -/
  | entWait
  /-- A derivation is about to be set up. -/
  | setup
  /-- A derivation is about to take one step of its throwaway generator. -/
  | fetch
  /-- A derivation is about to examine one nibble. -/
  | scan
  deriving DecidableEq, Repr

/-- The four response codes (60_exceptions R170). -/
inductive RspCode where
  /-- The command did what its rule says. -/
  | ok
  /-- The command byte selects no command. -/
  | ill
  /-- The command needed a register that holds no value. -/
  | inv
  /-- The entropy source reported that it has no strong source. -/
  | ent
  deriving DecidableEq, Repr

/-- A response, `rsp_code` and `rsp_data` (30_encoding R77). -/
structure Response where
  code : RspCode
  data : Word
  deriving DecidableEq, Repr

/-- The three errors a command can raise (60_exceptions R171). -/
inductive Err where
  | ill
  | inv
  | ent
  deriving DecidableEq, Repr

/-- The levels of the input pins at one rising edge of `clk`, but for the command channel (10_state R33, R34). -/
structure Pins where
  /-- `rst`, synchronous and active high (10_state R34). -/
  rst : Bool
  /-- `ent_ack` (10_state R33). -/
  entAck : Bool
  /-- `ent_fail`: 1 means EntropyUnavailable. -/
  entFail : Bool
  /-- `ent_data`, ignored where `ent_fail` is 1. -/
  entData : Word
  deriving DecidableEq, Repr

/-- A move of the host on the command port (70_reset_and_hazards R208). -/
inductive HostMove where
  /-- Present a command, `cmd_op` and `cmd_data` with `cmd_valid = 1`, and hold it until it is accepted. -/
  | issue (op : Byte) (data : Word)
  /-- Present nothing for one step. -/
  | wait
  deriving DecidableEq, Repr

/-- The state of one block and of its surroundings. The fields down to `phase` are the registers of 10_state R20,
in the order of its table; `owed` and `rsp` are the response channel (R32, 90_conflicts C8); the last four are the
model's own (log entry 2). -/
structure State where
  /-- `X`, the running value (10_state R21). -/
  x : Word
  /-- `W`, the Weyl accumulator (R22). -/
  w : Word
  /-- `S`, the Weyl increment (R23). -/
  s : Word
  /-- `XV`: `X` written since reset (R24). -/
  xv : Bool
  /-- `WV`: `W` written since reset (R24). -/
  wv : Bool
  /-- `SV`: `S` written since reset (R24). -/
  sv : Bool
  /-- `SEED`, the last derived seed (R25). -/
  seed : Word
  /-- `SEEDV`: `SEED` holds the result of a completed derivation (R25). -/
  seedv : Bool
  /-- `EILL`, sticky (R27). -/
  eill : Bool
  /-- `EINV`, sticky (R27). -/
  einv : Bool
  /-- `EENT`, sticky (R27). -/
  eent : Bool
  /-- `TX` of the throwaway generator (R28). -/
  tx : Word
  /-- `TW` of the throwaway generator (R28). -/
  tw : Word
  /-- `TS` of the throwaway generator (R28). -/
  ts : Word
  /-- `NREG`, the index being derived (R29). -/
  nreg : Word
  /-- `A`, the nibble-packed accumulator (R29). -/
  a : Word32
  /-- `C`, the used-digit mask (R29). -/
  c : BitVec 16
  /-- `M`, the bit position of the next free slot of `A` (R29). -/
  m : BitVec 6
  /-- `J`, the current output word of the throwaway generator (R29). -/
  j : Word32
  /-- `I`, the bit position of the nibble of `J` to be scanned next (R29). -/
  i : BitVec 5
  /-- `HALF`: false (0) while the upper half is extracted, true (1) for the lower (R29). -/
  half : Bool
  /-- `UH`, the finished upper half (R29). -/
  uh : Word32
  /-- `ESRC`: the derivation was started by `RSEED`; no result depends on it (R29). -/
  esrc : Bool
  /-- `PHASE` (R31). -/
  phase : Phase
  /-- The response of an accepted command that is still owed (R31, R32). -/
  owed : Option Response
  /-- The response channel: the pulse of `rsp_valid` with its code and data, if it is being given now (R32). -/
  rsp : Option Response
  /-- What the host does next on the command port, oldest first (70_reset_and_hazards R207, R208; log entry 2). -/
  host : List HostMove
  /-- The levels of the other input pins at this step's edge (10_state R35 (c), (d)). -/
  pins : Pins
  /-- Their levels at the coming edges, oldest first; past its end they stay as they are (log entry 2). -/
  pinsNext : List Pins
  /-- The responses given so far, oldest first: the observation of a run (70_reset_and_hazards R207; log entry 10). -/
  responses : List Response
  deriving DecidableEq, Repr

/-- The machine right after reset (10_state R36, 70_reset_and_hazards R190, R191): every register zero and `PHASE`
`IDLE`, nothing owed. The last four fields are the outside world, which a reset does not touch; here it does nothing
(DESIGN CHOICE, log entry 3). -/
def State.reset : State where
  x := 0#64
  w := 0#64
  s := 0#64
  xv := false
  wv := false
  sv := false
  seed := 0#64
  seedv := false
  eill := false
  einv := false
  eent := false
  tx := 0#64
  tw := 0#64
  ts := 0#64
  nreg := 0#64
  a := 0#32
  c := 0#16
  m := 0#6
  j := 0#32
  i := 0#5
  half := false
  uh := 0#32
  esrc := false
  phase := .idle
  owed := none
  rsp := none
  host := []
  pins := { rst := false, entAck := false, entFail := false, entData := 0#64 }
  pinsNext := []
  responses := []

/-- Why the machine stops. It never does: every error of the spec is reported in a response and the engine goes on
(60_exceptions R172), a hang is no error (R180), so there is no reason to list (log entry 9). -/
inductive Fault where
  deriving DecidableEq, Repr

/-- Why a command gets no meaning. Closed; raised by nothing in this model, since every arm of `exec` has a meaning. -/
inductive Refusal where
  /-- The command has no meaning in the model. Answered by no arm of `exec` and by no step; a stop here would be safe. -/
  | notModelled (mnemonic : String)
  deriving DecidableEq, Repr

end Sys2Proof.Machine
end

