-- ==== Sys2Proof/Machine/Ops.lean ====
section
/-! DEFINITION. The operations every meaning is built from: the bit primitives of 00_scope R9 to R12, the step
function `msws_step` (40_core_generator R90), the digit accumulator (41_seed_derivation R126), the one read of the
table (20_memory R51), the response of a command and the raising of an error (00_scope R13, 60_exceptions R172). There
is no return from an error: no control was transferred (60_exceptions R179). -/

namespace Sys2Proof.Machine

/-! Bit primitives -/

/-- `rot32(v) = {v[31:0], v[63:32]}`: the halves exchanged, no bit lost (00_scope R12, 40_core_generator R94). -/
def rot32 (v : Word) : Word := v.extractLsb' 0 32 ++ v.extractLsb' 32 32

/-- `v[31:0]` (00_scope R10). -/
def lowHalf (v : Word) : Word32 := v.extractLsb' 0 32

/-- `v[63:32]` (00_scope R10). -/
def highHalf (v : Word) : Word32 := v.extractLsb' 32 32

/-- `zext_64` of a 32-bit value (00_scope R12). -/
def zext64 (v : Word32) : Word := v.setWidth 64

/-- The four bits `v[p+3:p]` of a 32-bit value (00_scope R10). -/
def nibbleAt (v : Word32) (p : Nat) : Nibble := v.extractLsb' p 4

/-- `v` with `v[p+3:p] = k`, its other bits unchanged (41_seed_derivation R126, R145). -/
def setNibble (v : Word32) (p : Nat) (k : Nibble) : Word32 :=
  (v &&& ~~~((0xF#32) <<< p)) ||| (k.setWidth 32 <<< p)

/-! The step function -/

/-- A GeneratorState, the triple `(x, w, s)` (00_scope R15). -/
structure Gen where
  x : Word
  w : Word
  s : Word
  deriving DecidableEq, Repr

/-- `x2` of the step function: the square plus the advanced Weyl value, modulo 2^64 (40_core_generator R91 to R93). -/
def mswsSum (g : Gen) : Word := g.x * g.x + (g.w + g.s)

/-- `msws_step` without its output: the new GeneratorState `(x3, w1, s)` (40_core_generator R90). -/
def mswsNext (g : Gen) : Gen := { x := rot32 (mswsSum g), w := g.w + g.s, s := g.s }

/-- The output of a step, `x3[31:0]`: 32 bits with no sign (40_core_generator R95). -/
def mswsOut (g : Gen) : Word32 := lowHalf (mswsNext g).x

/-! The digit accumulator -/

/-- The accumulator `a`, the used-digit mask `c` and the slot counter `m` of one half (41_seed_derivation R126). -/
structure Acc where
  a : Word32
  c : BitVec 16
  m : BitVec 6
  deriving DecidableEq, Repr

/-- All three are 0 at the start of each half (41_seed_derivation R126, R128). -/
def Acc.empty : Acc := { a := 0#32, c := 0#16, m := 0#6 }

/-- The digit `k` has been used in this half: bit `k` of `c` is 1 (41_seed_derivation R127). -/
def Acc.used (acc : Acc) (k : Nibble) : Bool := acc.c.getLsbD k.toNat

/-- One digit offered to the accumulator: a fresh digit is marked and packed into slot `a[m+3:m]`, a used one is
skipped (41_seed_derivation R126, R128, R145). -/
def Acc.offer (acc : Acc) (k : Nibble) : Acc :=
  if acc.used k then acc
  else { a := setNibble acc.a acc.m.toNat k, c := acc.c ||| (1#16 <<< k.toNat), m := acc.m + 4#6 }

/-- The eighth digit has been packed (41_seed_derivation R126: `m == 32`). -/
def Acc.full (acc : Acc) : Bool := acc.m == 32#6

/-! The arithmetic of a derivation, with the names of 41_seed_derivation R120 -/

/-- `DEC = 100_000_000` (00_scope R7). -/
def decimalBase : Word := 100000000#64

/-- `TLEN = 30` (00_scope R7). -/
def tableLength : Word := 30#64

/-- `normalise(n)`: the negation of an `n` whose bit 63 is 1, else `n` (41_seed_derivation R121). For `n = 2^63` it is
2^63, taken as an unsigned number from here on (92_eei_decisions D21, log entry 7). -/
def normalise (n : Word) : Word := if n.getLsbD 63 then -n else n

/-- `r = udiv(n1, 100_000_000)` (41_seed_derivation R122). -/
def indexQuotient (n : Word) : Word := normalise n / decimalBase

/-- `t = umod(n1, 100_000_000)` (41_seed_derivation R122). -/
def indexRemainder (n : Word) : Word := normalise n % decimalBase

/-- `umod(r, 30)` lies in 0..29 for every 64-bit `r` (20_memory R52). -/
theorem tableIndex_lt (r : Word) : (r % tableLength).toNat < 30 := by
  rw [BitVec.toNat_umod]
  exact Nat.mod_lt _ (by decide)

/-- `idx = umod(r, 30)`, with the `r` from before its reduction (41_seed_derivation R123, R124). -/
def tableIndex (n : Word) : TableIndex := ⟨(indexQuotient n % tableLength).toNat, tableIndex_lt _⟩

/-- `r2 = udiv(r, 30)` (41_seed_derivation R124). -/
def reducedQuotient (n : Word) : Word := indexQuotient n / tableLength

/-- `RomRead(i)`: the block's only memory read; it has no side effect (00_scope R13, 20_memory R51). -/
def romRead (table : Table) (i : TableIndex) : Word := table i

/-- `tc = RomRead(idx)`: the increment of the throwaway generator (41_seed_derivation R123). -/
def tableConst (table : Table) (n : Word) : Word := romRead table (tableIndex n)

/-- `x0 = t * tc + r2 * tc * 100_000_000`, modulo 2^64 (41_seed_derivation R125). The order of the three factors "does
not change the result" (R125); the constant stands first, where no check has to count up to it. -/
def initialX (table : Table) (n : Word) : Word :=
  indexRemainder n * tableConst table n + decimalBase * (reducedQuotient n * tableConst table n)

/-- The throwaway generator a derivation starts from, `(x0, x0, tc)` (41_seed_derivation R125). -/
def initialGen (table : Table) (n : Word) : Gen :=
  { x := initialX table n, w := initialX table n, s := tableConst table n }

/-- `{up, lo} | 1`: the upper half first, bit 0 forced to 1 (41_seed_derivation R132, R133). -/
def combineHalves (up lo : Word32) : Word := (up ++ lo : BitVec (32 + 32)) ||| 1#64

/-! Responses and errors -/

/-- `respond(code, data)`: the command's single response is owed from now on (00_scope R13, 10_state R32). -/
def State.respond (code : RspCode) (data : Word) (s : State) : State := { s with owed := some ⟨code, data⟩ }

/-- The response code of an error (60_exceptions R171). -/
def Err.code : Err → RspCode
  | .ill => .ill
  | .inv => .inv
  | .ent => .ent

/-- `raise E`: the sticky flag of `E` is set, the response is `(code of E, 0)`, the command ends with `PHASE = IDLE`,
and nothing else changes: nothing is saved, no mode changes, control goes nowhere (60_exceptions R172 to R175). -/
def State.raise (e : Err) (s : State) : State :=
  { s with
    eill := s.eill || e == .ill
    einv := s.einv || e == .inv
    eent := s.eent || e == .ent
    phase := .idle
    owed := some ⟨e.code, 0#64⟩ }

/-! The two generators and the accumulator of a state -/

/-- The primary generator `(X, W, S)` (10_state R21 to R23). -/
def State.primary (s : State) : Gen := { x := s.x, w := s.w, s := s.s }

/-- The throwaway generator `(TX, TW, TS)` (10_state R28). -/
def State.throwaway (s : State) : Gen := { x := s.tx, w := s.tw, s := s.ts }

/-- The working registers `A`, `C`, `M` (10_state R29). -/
def State.acc (s : State) : Acc := { a := s.a, c := s.c, m := s.m }

/-- Construction or reseed: `X`, `W`, `S` all set to one value, with their valid bits, together (40_core_generator
R103, R104). -/
def State.construct (v : Word) (s : State) : State :=
  { s with x := v, w := v, s := v, xv := true, wv := true, sv := true }

end Sys2Proof.Machine
end

