-- ==== Sys2Proof/Machine/Flags.lean ====
section
/-! DEFINITION. The valid bits, the sticky error flags and the `STATUS` view (10_state R24 to R27). There are no
arithmetic flags (10_state R27). -/

namespace Sys2Proof.Machine

/-- `GV`: the primary generator has been constructed, `XV and WV and SV` (10_state R24). -/
def State.generatorValid (s : State) : Bool := s.xv && s.wv && s.sv

/-- Bits 6:0 of `STATUS`: `{EENT, EINV, EILL, SEEDV, SV, WV, XV}`, the first named uppermost (10_state R26). -/
def State.statusBits (s : State) : BitVec 7 :=
  BitVec.ofBool s.eent ++ BitVec.ofBool s.einv ++ BitVec.ofBool s.eill ++ BitVec.ofBool s.seedv ++
    BitVec.ofBool s.sv ++ BitVec.ofBool s.wv ++ BitVec.ofBool s.xv

/-- `STATUS`, a 64-bit read-only view; bits 63:7 are hardwired zero (10_state R26). -/
def State.status (s : State) : Word := s.statusBits.setWidth 64

/-- The sticky flags cleared, the valid bits kept (42_system R165). -/
def State.clearErrors (s : State) : State := { s with eill := false, einv := false, eent := false }

/-- The tail of a command that reads a register: its value if the valid bit is 1, else `INV` (60_exceptions R174). -/
def State.readRegister (valid : Bool) (value : Word) (s : State) : State :=
  if valid then s.respond .ok value else s.raise .inv

end Sys2Proof.Machine
end

