-- ==== Sys2Proof/Machine/Generator.lean ====
section
/-! DEFINITION. The commands of the core generator: `STEP`, `LDX`, `LDW`, `LDS`, `INIT`, `INITS` (40_core_generator R99
to R104). -/

namespace Sys2Proof.Machine

/-- `STEP`: one step of the primary generator, its output zero-extended; `INV` unless `XV`, `WV` and `SV` are all 1
(40_core_generator R99). -/
def execStep (s : State) : Host.Outcome State Fault Refusal :=
  .next (if s.generatorValid then
    { s with x := (mswsNext s.primary).x, w := (mswsNext s.primary).w }.respond .ok (zext64 (mswsOut s.primary))
  else s.raise .inv)

/-- `LDX v` (40_core_generator R100). -/
def execLdx (v : Word) (s : State) : Host.Outcome State Fault Refusal :=
  .next ({ s with x := v, xv := true }.respond .ok 0#64)

/-- `LDW v` (40_core_generator R101). -/
def execLdw (v : Word) (s : State) : Host.Outcome State Fault Refusal :=
  .next ({ s with w := v, wv := true }.respond .ok 0#64)

/-- `LDS v`: any value, even or zero, is loaded as given (40_core_generator R102). -/
def execLds (v : Word) (s : State) : Host.Outcome State Fault Refusal :=
  .next ({ s with s := v, sv := true }.respond .ok 0#64)

/-- `INIT v` (40_core_generator R103). -/
def execInit (v : Word) (s : State) : Host.Outcome State Fault Refusal :=
  .next ((s.construct v).respond .ok 0#64)

/-- `INITS`: construct from `SEED`; `INV` where `SEEDV` is 0 (40_core_generator R104). -/
def execInits (s : State) : Host.Outcome State Fault Refusal :=
  .next (if s.seedv then (s.construct s.seed).respond .ok 0#64 else s.raise .inv)

end Sys2Proof.Machine
end

