-- ==== Sys2Proof/Machine/Seed.lean ====
section
/-! DEFINITION. The acceptance of `DERIVE` and `RSEED` (41_seed_derivation R138, R139, R141). Accepting one starts a
derivation and produces no response yet; the micro-steps of Machine/Sequencer.lean carry it out. -/

namespace Sys2Proof.Machine

/-- `DERIVE n`, at acceptance (41_seed_derivation R141). -/
def execDerive (n : Word) (s : State) : Host.Outcome State Fault Refusal :=
  .next { s with nreg := n, esrc := false, seedv := false, phase := .setup }

/-- `RSEED`, at acceptance: one entropy request stands from now on (41_seed_derivation R141, R142). -/
def execRseed (s : State) : Host.Outcome State Fault Refusal :=
  .next { s with esrc := true, seedv := false, phase := .entWait }

end Sys2Proof.Machine
end

