-- ==== Sys2Proof/Machine/System.lean ====
section
/-! DEFINITION. The system commands: register reads and `CLRERR` (42_system R160 to R165). -/

namespace Sys2Proof.Machine

/-- `RDX` (42_system R160). -/
def execRdx (s : State) : Host.Outcome State Fault Refusal := .next (s.readRegister s.xv s.x)

/-- `RDW` (42_system R161). -/
def execRdw (s : State) : Host.Outcome State Fault Refusal := .next (s.readRegister s.wv s.w)

/-- `RDS` (42_system R162). -/
def execRds (s : State) : Host.Outcome State Fault Refusal := .next (s.readRegister s.sv s.s)

/-- `RDSEED` (42_system R163). -/
def execRdseed (s : State) : Host.Outcome State Fault Refusal := .next (s.readRegister s.seedv s.seed)

/-- `RDSTAT`: always succeeds and clears nothing (42_system R164). -/
def execRdstat (s : State) : Host.Outcome State Fault Refusal := .next (s.respond .ok s.status)

/-- `CLRERR` (42_system R165). -/
def execClrerr (s : State) : Host.Outcome State Fault Refusal := .next (s.clearErrors.respond .ok 0#64)

end Sys2Proof.Machine
end

