-- ==== Sys2Proof/Machine/Dispatch.lean ====
section
/-! DEFINITION. One arm a command: what accepting it does (30_encoding R72). Called by the step only where the engine
is ready (10_state R31, log entry 12). -/

namespace Sys2Proof.Machine

def exec (i : Instr) (s : State) : Host.Outcome State Fault Refusal :=
  match i with
  | .step => Sys2Proof.Machine.execStep s
  | .ldx v => Sys2Proof.Machine.execLdx v s
  | .ldw v => Sys2Proof.Machine.execLdw v s
  | .lds v => Sys2Proof.Machine.execLds v s
  | .init v => Sys2Proof.Machine.execInit v s
  | .rdx => Sys2Proof.Machine.execRdx s
  | .rdw => Sys2Proof.Machine.execRdw s
  | .rds => Sys2Proof.Machine.execRds s
  | .rdseed => Sys2Proof.Machine.execRdseed s
  | .rdstat => Sys2Proof.Machine.execRdstat s
  | .derive n => Sys2Proof.Machine.execDerive n s
  | .rseed => Sys2Proof.Machine.execRseed s
  | .inits => Sys2Proof.Machine.execInits s
  | .clrerr => Sys2Proof.Machine.execClrerr s

end Sys2Proof.Machine
end

