-- ==== Sys2Proof/Machine/Ports.lean ====
section
/-! DEFINITION. The ports of the block (10_state R32 to R34): what it drives, what it samples, and what everything
outside it does at a clock edge. -/

namespace Sys2Proof.Machine

/-! Outputs -/

/-- `cmd_ready`: 1 exactly when `PHASE = IDLE` and no response is still owed (10_state R32, 90_conflicts C8). -/
def State.cmdReady (s : State) : Bool := s.phase == .idle && s.owed.isNone

/-- `busy`, the complement of `cmd_ready` (10_state R32). -/
def State.busy (s : State) : Bool := !s.cmdReady

/-- `rsp_valid` (10_state R32). -/
def State.rspValid (s : State) : Bool := s.rsp.isSome

/-- The two bits of a response code: `OK = 0`, `ILL = 1`, `INV = 2`, `ENT = 3` (30_encoding R77). -/
def RspCode.bits : RspCode → BitVec 2
  | .ok => 0#2
  | .ill => 1#2
  | .inv => 2#2
  | .ent => 3#2

/-- `rsp_code`, zero outside the cycle of the response (10_state R32). -/
def State.rspCode (s : State) : BitVec 2 :=
  match s.rsp with
  | some r => r.code.bits
  | none => 0#2

/-- `rsp_data`, zero outside the cycle of the response (10_state R32). -/
def State.rspData (s : State) : Word :=
  match s.rsp with
  | some r => r.data
  | none => 0#64

/-- `ent_req`: 1 while `PHASE = ENTWAIT` and at no other time (10_state R33). -/
def State.entReq (s : State) : Bool := s.phase == .entWait

/-- The 3-bit encoding of `PHASE`, which nothing can observe (10_state R31). -/
def Phase.bits : Phase → BitVec 3
  | .idle => 0#3
  | .entWait => 1#3
  | .setup => 2#3
  | .fetch => 3#3
  | .scan => 4#3

/-! Inputs -/

/-- The command the host presents at this edge, `cmd_op` and `cmd_data` where `cmd_valid` is 1 (10_state R32). -/
def State.presented (s : State) : Option (Byte × Word) :=
  match s.host with
  | .issue op data :: _ => some (op, data)
  | .wait :: _ => none
  | [] => none

/-- What the host has left to do after this edge: a presented command is gone once `cmd_valid` and `cmd_ready` were
both 1 and is held otherwise; a wait lasts one step (10_state R32, 70_reset_and_hazards R194, R208). -/
def State.hostAfter (s : State) : List HostMove :=
  match s.host with
  | .issue op data :: rest => if s.cmdReady then rest else .issue op data :: rest
  | .wait :: rest => rest
  | [] => []

/-- What happens at every edge outside the registers: the pulse of an earlier response is over (10_state R32), the
host has made its move, and the input pins take their next levels (log entry 2). -/
def State.tick (s : State) : State :=
  { s with rsp := none, host := s.hostAfter, pins := s.pinsNext.headD s.pins, pinsNext := s.pinsNext.tail }

/-- `rst = 1` at an edge: every register takes its reset value, whatever else is presented (10_state R34); a running
command is abandoned, an owed response with it (70_reset_and_hazards R190, R192). The outside world goes on. -/
def State.resetRegisters (s : State) : State :=
  { State.reset with host := s.host, pins := s.pins, pinsNext := s.pinsNext, responses := s.responses }

/-- The owed response is given: `rsp_valid` for one step, with its code and data (10_state R32, log entry 1). -/
def State.deliver (r : Response) (s : State) : State :=
  { s with owed := none, rsp := some r, responses := s.responses ++ [r] }

end Sys2Proof.Machine
end

