-- ==== Sys2Proof/Machine/Sequencer.lean ====
section
/-! DEFINITION. The sequencer (41_seed_derivation R140 to R145): one micro-step a phase, and the acceptance of a
command. Each function gives the state after the edge from the state before it; `State.tick` is what the outside
world does at the same edge. -/

namespace Sys2Proof.Machine

/-- The micro-step in `IDLE` (41_seed_derivation R141): a presented command is accepted, decoded and executed, an
illegal byte raises `ILL` (60_exceptions R173), and where none is presented the engine waits (70_reset_and_hazards
R190). -/
def State.accept (s : State) : Host.Outcome State Fault Refusal :=
  match s.presented with
  | some (op, data) =>
    match decode op data with
    | .command i => exec i s.tick
    | .illegal => .next (s.tick.raise .ill)
  | none => .next s.tick

/-- The micro-step in `ENTWAIT` (41_seed_derivation R142, 10_state R33): a value starts the derivation, a failure raises
`ENT`, and without an answer the engine stays where it is. -/
def State.entropyStep (s : State) : State :=
  if s.pins.entAck then
    if s.pins.entFail then s.tick.raise .ent
    else { s.tick with nreg := s.pins.entData, phase := .setup }
  else s.tick

/-- The micro-step in `SETUP` (41_seed_derivation R143). -/
def State.setupStep (table : Table) (s : State) : State :=
  { s.tick with
    tx := (initialGen table s.nreg).x
    tw := (initialGen table s.nreg).w
    ts := (initialGen table s.nreg).s
    half := false
    a := Acc.empty.a
    c := Acc.empty.c
    m := Acc.empty.m
    phase := .fetch }

/-- The micro-step in `FETCH`: one T-step; the word is latched (41_seed_derivation R144). -/
def State.fetchStep (s : State) : State :=
  { s.tick with
    tx := (mswsNext s.throwaway).x
    tw := (mswsNext s.throwaway).w
    j := mswsOut s.throwaway
    i := 0#5
    phase := .scan }

/-- The nibble of `J` at bit position `I`, offered to `A`, `C`, `M` (41_seed_derivation R145). -/
def State.scanned (s : State) : Acc := s.acc.offer (nibbleAt s.j s.i.toNat)

/-- The upper half is complete: it is kept, the accumulator starts again, the rest of `J` is discarded
(41_seed_derivation R130, R145). -/
def State.finishUpper (s : State) : State :=
  { s.tick with
    uh := s.scanned.a
    half := true
    a := Acc.empty.a
    c := Acc.empty.c
    m := Acc.empty.m
    phase := .fetch }

/-- The lower half is complete: the seed is written and the command responds; `A`, `C`, `M` stay as they are
(41_seed_derivation R145). -/
def State.finishLower (s : State) : State :=
  { s.tick with
    seed := combineHalves s.uh s.scanned.a
    seedv := true
    phase := .idle }.respond .ok (combineHalves s.uh s.scanned.a)

/-- The half is not complete: the accumulator is kept, and the scan goes on with the next nibble or, after the last
one, with the next word (41_seed_derivation R145). -/
def State.keepScanning (s : State) : State :=
  { s.tick with
    a := s.scanned.a
    c := s.scanned.c
    m := s.scanned.m
    i := if s.i = 28#5 then s.i else s.i + 4#5
    phase := if s.i = 28#5 then .fetch else .scan }

/-- The micro-step in `SCAN` (41_seed_derivation R145). -/
def State.scanStep (s : State) : State :=
  if s.scanned.full then
    if s.half then s.finishLower else s.finishUpper
  else s.keepScanning

/-- One step of the block with the given table (00_scope R6): reset over everything (60_exceptions R176), then the
response that is still owed (10_state R32), then the micro-step of the phase (41_seed_derivation R140). -/
def stepWith (table : Table) (s : State) : Host.Outcome State Fault Refusal :=
  if s.pins.rst then .next s.tick.resetRegisters
  else
    match s.owed with
    | some r => .next (s.tick.deliver r)
    | none =>
      match s.phase with
      | .idle => s.accept
      | .entWait => .next s.entropyStep
      | .setup => .next (s.setupStep table)
      | .fetch => .next s.fetchStep
      | .scan => .next s.scanStep

/-- A command placed at the head of the host's moves, so that the next step accepts it: the engine idle, nothing owed,
`rst` low (log entry 4). -/
def State.withCommand (op : Byte) (data : Word) (s : State) : State :=
  { s with
    host := .issue op data :: s.host
    owed := none
    phase := .idle
    pins := { s.pins with rst := false } }

end Sys2Proof.Machine
end

