-- ==== Sys2Proof/Machine/Step.lean ====
section
/-! DEFINITION. The step of the machine, with the hardware's table (00_scope R6). -/

namespace Sys2Proof.Machine

/-- One step: `stepWith` of Machine/Sequencer.lean with the parameter `SCONST`. -/
def step (s : State) : Host.Outcome State Fault Refusal := stepWith Config.sconst s

/-- `s` with the instruction of an opcode-table word as the command the next step accepts (log entry 4). -/
def State.withFetchWord (s : State) (nbits w : Nat) : State :=
  s.withCommand (tableByte nbits w) (tableOperand nbits w)

end Sys2Proof.Machine
end

