-- ==== Sys2Proof/Machine/Operands.lean ====
section
/-! DEFINITION. The two operand forms of a command (30_encoding R71, R73): there are no immediates in the command byte,
no register-number fields and no addressing modes. -/

namespace Sys2Proof.Machine

/-- The two formats (30_encoding R71). -/
inductive Format where
  /-- Format `D`: all 64 bits of `cmd_data` are the operand, not extended, scaled or shifted. -/
  | data
  /-- Format `Z`: `cmd_data` is ignored. -/
  | zero
  deriving DecidableEq, Repr

/-- The format column of the opcode map (30_encoding R72). -/
def formatOf : Instr → Format
  | .step => .zero
  | .ldx _ => .data
  | .ldw _ => .data
  | .lds _ => .data
  | .init _ => .data
  | .rdx => .zero
  | .rdw => .zero
  | .rds => .zero
  | .rdseed => .zero
  | .rdstat => .zero
  | .derive _ => .data
  | .rseed => .zero
  | .inits => .zero
  | .clrerr => .zero

/-- The operand a command carries, where it has one (30_encoding R73). -/
def operandOf : Instr → Option Word
  | .step => none
  | .ldx v => some v
  | .ldw v => some v
  | .lds v => some v
  | .init v => some v
  | .rdx => none
  | .rdw => none
  | .rds => none
  | .rdseed => none
  | .rdstat => none
  | .derive n => some n
  | .rseed => none
  | .inits => none
  | .clrerr => none

end Sys2Proof.Machine
end

