-- ==== Sys2Proof/Machine/Script.lean ====
section
/-! DEFINITION. The textual form of a command sequence and the pseudo-commands (30_encoding R78, R79). It "exists only
so that programs can be written down": the machine itself reads commands from its port. Text is a list of characters. -/

namespace Sys2Proof.Machine

/-! The pseudo-commands -/

/-- `LDSTATE x, w, s` (30_encoding R79). -/
def ldstate (x w s : Word) : List Instr := [.ldx x, .ldw w, .lds s]

/-- `NEWGEN n` (30_encoding R79). -/
def newgen (n : Word) : List Instr := [.derive n, .inits]

/-- `NEWGENR` (30_encoding R79). -/
def newgenr : List Instr := [.rseed, .inits]

/-- The commands of a script presented one after another: bytes and operands, illegal bytes too (program P4 of
95_test_vectors). -/
def commandMoves (script : List (Byte × Word)) : List HostMove := script.map fun c => .issue c.1 c.2

/-- A script as the host's moves: its commands presented one after another (70_reset_and_hazards R207, R208). -/
def scriptMoves (script : List Instr) : List HostMove := commandMoves (script.map encode)

/-! Reading a line -/

/-- The value of a digit in base 10 or 16; both cases of a hexadecimal letter are read (DESIGN CHOICE, log entry 14). -/
def digitValue (hex : Bool) (ch : Char) : Option Nat :=
  if 48 ≤ ch.toNat ∧ ch.toNat ≤ 57 then some (ch.toNat - 48)
  else if hex ∧ 65 ≤ ch.toNat ∧ ch.toNat ≤ 70 then some (ch.toNat - 55)
  else if hex ∧ 97 ≤ ch.toNat ∧ ch.toNat ≤ 102 then some (ch.toNat - 87)
  else none

/-- A numeral: digits, with single underscores between digits (30_encoding R78). `afterDigit` says that a digit stands
before. -/
def readDigits (hex : Bool) : List Char → Bool → Nat → Option Nat
  | [], afterDigit, value => if afterDigit then some value else none
  | ch :: rest, afterDigit, value =>
    if ch = '_' then
      if afterDigit then readDigits hex rest false value else none
    else
      match digitValue hex ch with
      | some d => readDigits hex rest true (value * (if hex then 16 else 10) + d)
      | none => none

/-- A decimal numeral, or a hexadecimal one after `0x` (30_encoding R78). -/
def readNumeral (text : List Char) : Option Nat :=
  match text with
  | '0' :: 'x' :: rest => readDigits true rest false 0
  | _ => readDigits false text false 0

/-- An operand: a numeral that fits 64 bits (log entry 14). -/
def readOperand (text : List Char) : Option Word :=
  match readNumeral text with
  | some n => if n < 2 ^ 64 then some (BitVec.ofNat 64 n) else none
  | none => none

/-- The operand of `DERIVE`, where a leading `-` before a decimal numeral stands for the 64-bit two's complement
(30_encoding R78). -/
def readIndex (text : List Char) : Option Word :=
  match text with
  | '-' :: rest =>
    match readDigits false rest false 0 with
    | some n => if n ≤ 2 ^ 63 then some (-BitVec.ofNat 64 n) else none
    | none => none
  | _ => readOperand text

/-- What stands before the `;` of a comment (30_encoding R78). -/
def stripComment (line : List Char) : List Char := line.takeWhile (· ≠ ';')

/-- The words of a line, a comma a word of its own. `word` is the word being read, its last character first. -/
def splitWords : List Char → List Char → List (List Char)
  | [], word => if word = [] then [] else [word.reverse]
  | ch :: rest, word =>
    if ch = ' ' ∨ ch = '\t' ∨ ch = '\r' then
      if word = [] then splitWords rest [] else word.reverse :: splitWords rest []
    else if ch = ',' then
      if word = [] then [','] :: splitWords rest [] else word.reverse :: [','] :: splitWords rest []
    else splitWords rest (ch :: word)

/-- The format `Z` command with this mnemonic (30_encoding R72). -/
def zeroMnemonic (word : List Char) : Option Instr :=
  if word = ['S', 'T', 'E', 'P'] then some .step
  else if word = ['R', 'D', 'X'] then some .rdx
  else if word = ['R', 'D', 'W'] then some .rdw
  else if word = ['R', 'D', 'S'] then some .rds
  else if word = ['R', 'D', 'S', 'E', 'E', 'D'] then some .rdseed
  else if word = ['R', 'D', 'S', 'T', 'A', 'T'] then some .rdstat
  else if word = ['R', 'S', 'E', 'E', 'D'] then some .rseed
  else if word = ['I', 'N', 'I', 'T', 'S'] then some .inits
  else if word = ['C', 'L', 'R', 'E', 'R', 'R'] then some .clrerr
  else none

/-- The format `D` command with this mnemonic and operand text (30_encoding R72, R78). -/
def dataMnemonic (word operand : List Char) : Option Instr :=
  if word = ['L', 'D', 'X'] then (readOperand operand).map .ldx
  else if word = ['L', 'D', 'W'] then (readOperand operand).map .ldw
  else if word = ['L', 'D', 'S'] then (readOperand operand).map .lds
  else if word = ['I', 'N', 'I', 'T'] then (readOperand operand).map .init
  else if word = ['D', 'E', 'R', 'I', 'V', 'E'] then (readIndex operand).map .derive
  else none

/-- The commands of a line's words: none for an empty line, several for a pseudo-command (30_encoding R78, R79). -/
def readWords : List (List Char) → Option (List Instr)
  | [] => some []
  | [word] =>
    if word = ['N', 'E', 'W', 'G', 'E', 'N', 'R'] then some newgenr else (zeroMnemonic word).map fun i => [i]
  | [word, operand] =>
    if word = ['N', 'E', 'W', 'G', 'E', 'N'] then (readOperand operand).map newgen
    else (dataMnemonic word operand).map fun i => [i]
  | [word, x, comma1, w, comma2, s] =>
    if word = ['L', 'D', 'S', 'T', 'A', 'T', 'E'] ∧ comma1 = [','] ∧ comma2 = [','] then
      match readOperand x, readOperand w, readOperand s with
      | some x, some w, some s => some (ldstate x w s)
      | _, _, _ => none
    else none
  | _ => none

/-- One line of a script (30_encoding R78). -/
def readLine (line : List Char) : Option (List Instr) := readWords (splitWords (stripComment line) [])

/-- A script, a line at a time; `line` is the line being read, its last character first (30_encoding R78). -/
def readScript : List Char → List Char → Option (List Instr)
  | [], line => readLine line.reverse
  | ch :: rest, line =>
    if ch = '\n' then
      match readLine line.reverse, readScript rest [] with
      | some here, some later => some (here ++ later)
      | _, _ => none
    else readScript rest (ch :: line)

/-! Writing an encoding -/

/-- A hexadecimal digit, in capitals (30_encoding R78). -/
def hexDigit (k : Nibble) : Char :=
  if k.toNat < 10 then Char.ofNat (48 + k.toNat) else Char.ofNat (55 + k.toNat)

/-- The lowest `count` hexadecimal digits of a value, the most significant first. -/
def hexDigits (v : Word) : Nat → List Char
  | 0 => []
  | count + 1 => hexDigit (v.extractLsb' (4 * count) 4) :: hexDigits v count

/-- The written encoding of a command: two digits, a colon, sixteen digits (30_encoding R78). -/
def encodingText (i : Instr) : List Char :=
  hexDigits ((encode i).1.setWidth 64) 2 ++ ':' :: hexDigits (encode i).2 16

end Sys2Proof.Machine
end

