-- ==== Sys2Proof/Machine/Run.lean ====
section
/-! DEFINITION. A run (70_reset_and_hazards R207, 92_eei_decisions D27): a finite command script applied to the block from
a start state, with one entropy answer for each `RSEED`; when it is over, its end state and its observation. -/

namespace Sys2Proof.Machine

/-- The answer of the entropy source to one request (41_seed_derivation R139). -/
inductive EntropyAnswer where
  /-- `Value(v)`. -/
  | value (v : Word)
  /-- `Fail`, EntropyUnavailable. -/
  | fail
  /-- No answer, ever (00_scope R14). -/
  | never
  deriving DecidableEq, Repr

/-- A run at some moment: the block, and the entropy answers that are still to be given, oldest first. -/
structure Run where
  state : State
  answers : List EntropyAnswer
  deriving DecidableEq, Repr

/-- What a run that is over leaves: its end state and its observation (70_reset_and_hazards R207). -/
structure RunEnd where
  /-- The state of 10_state R20 at that moment. -/
  endState : State
  /-- The responses in order. -/
  observation : List Response
  deriving DecidableEq, Repr

/-- The levels of the input pins in a run: no reset, and no answer (log entry 18). -/
def Pins.quiet : Pins := { rst := false, entAck := false, entFail := false, entData := 0#64 }

/-- The pins of a step at which the source gives this answer (10_state R33). -/
def EntropyAnswer.pins : EntropyAnswer → Pins
  | .value v => { Pins.quiet with entAck := true, entData := v }
  | .fail => { Pins.quiet with entAck := true, entFail := true }
  | .never => Pins.quiet

/-- The answers left once this list has been asked: a request that is never answered stays. -/
def answersLeft : List EntropyAnswer → List EntropyAnswer
  | .value _ :: rest => rest
  | .fail :: rest => rest
  | .never :: rest => .never :: rest
  | [] => []

/-- A request is sampled at this edge: `ent_req` stands and the engine makes a micro-step (10_state R33). -/
def State.asksEntropy (s : State) : Bool := s.entReq && s.owed.isNone

/-- The block with these levels on its input pins, at this edge and the coming ones. -/
def State.withPins (pins : Pins) (s : State) : State := { s with pins := pins, pinsNext := [] }

/-- A run at its start: the script applied from the state `s`, whose ports the run takes over; nothing has been observed
yet (70_reset_and_hazards R207). -/
def Run.start (s : State) (script : List (Byte × Word)) (answers : List EntropyAnswer) : Run where
  state := { s with host := commandMoves script, responses := [] }.withPins Pins.quiet
  answers := answers

/-- The levels of the pins at the next edge of a run: the next answer where one is asked for (log entry 18). -/
def Run.pins (r : Run) : Pins :=
  if r.state.asksEntropy then (r.answers.headD .never).pins else Pins.quiet

/-- One step of a run, with the given table: an answer stands on the pins for this edge only (10_state R33). `none` if
the step stops (none does). -/
def Run.next (table : Table) (r : Run) : Option Run :=
  match stepWith table (r.state.withPins r.pins) with
  | .next t =>
    some { state := t.withPins Pins.quiet, answers := if r.state.asksEntropy then answersLeft r.answers else r.answers }
  | .fault _ => none
  | .refused _ => none

/-- A run is over: every command has been accepted and has produced its response, `PHASE = IDLE`, no response is owed
and `ent_req = 0` (70_reset_and_hazards R207). -/
def State.runOver (s : State) : Bool :=
  s.host.all (· == .wait) && s.phase == .idle && s.owed.isNone && !s.entReq

/-- The registers of 10_state R20 alone: the ports and the outside world put aside. -/
def State.registers (s : State) : State :=
  { s with rsp := none, host := [], pins := Pins.quiet, pinsNext := [], responses := [] }

/-- What a run that is over leaves (70_reset_and_hazards R207). -/
def Run.ending (r : Run) : RunEnd := { endState := r.state.registers, observation := r.state.responses }

/-- The end of a run within a budget of steps. A run that waits or derives for ever has none: no budget suffices
(70_reset_and_hazards R207, 60_exceptions R180). Responses other than `OK` do not keep a run from ending. -/
def Run.finish (table : Table) : Nat → Run → Option RunEnd
  | 0, r => if r.state.runOver then some r.ending else none
  | budget + 1, r =>
    if r.state.runOver then some r.ending
    else
      match r.next table with
      | some r' => r'.finish table budget
      | none => none

end Sys2Proof.Machine
end

