-- ==== Sys2Proof/Machine/Chip.lean ====
section
/-! DEFINITION. Several instances of the block on one chip (60_exceptions R184, 20_memory R61): they share no register
and cannot signal one another; all read the one table `SCONST`. -/

namespace Sys2Proof.Machine

/-- The instances of a chip. They have no identifiers (60_exceptions R184); a place in the list only tells them
apart here. -/
abbrev Chip := List State

/-- The instance at place `k` makes one step; which instance moves is the caller's choice, so every interleaving is
some sequence of choices (log entry 13). -/
def Chip.stepAt (k : Nat) (chip : Chip) : Host.Outcome Chip Fault Refusal :=
  match chip[k]? with
  | none => .next chip
  | some s =>
    match step s with
    | .next t => .next (chip.set k t)
    | .fault r => .fault r
    | .refused r => .refused r

end Sys2Proof.Machine
end

