-- ==== Sys2Proof/Machine/Derivation.lean ====
section
/-! DEFINITION. The function `derive_seed` of 41_seed_derivation R120 and R126, "the normative one" (R146). Its loop has
no stated bound (R135), so each function here takes a budget of T-steps and answers `none` where the budget is used
up: `derive_seed(n)` ends exactly when some budget suffices (log entry 11). -/

namespace Sys2Proof.Machine

/-- The bit positions of the eight nibbles of a word, in the order of scanning (41_seed_derivation R127). -/
def scanPositions : List Nat := [0, 4, 8, 12, 16, 20, 24, 28]

/-- The nibbles of `j` at the given positions are offered one after another; scanning stops at the eighth digit and
discards the rest of the word (41_seed_derivation R126, R130). -/
def scanWord (j : Word32) : List Nat → Acc → Acc
  | [], acc => acc
  | p :: rest, acc =>
    if (acc.offer (nibbleAt j p)).full then acc.offer (nibbleAt j p)
    else scanWord j rest (acc.offer (nibbleAt j p))

/-- What `extract_half` returns, with the part of the budget that is left. -/
structure Extracted where
  digits : Word32
  gen : Gen
  left : Nat
  deriving DecidableEq, Repr

/-- The loop of `extract_half`: a T-step, then the scan of its word, until eight digits are packed
(41_seed_derivation R126, R129). -/
def extractLoop : Nat → Gen → Acc → Option Extracted
  | 0, _, _ => none
  | budget + 1, g, acc =>
    if (scanWord (mswsOut g) scanPositions acc).full then
      some { digits := (scanWord (mswsOut g) scanPositions acc).a, gen := mswsNext g, left := budget }
    else extractLoop budget (mswsNext g) (scanWord (mswsOut g) scanPositions acc)

/-- `extract_half(T)`, within a budget (41_seed_derivation R126). -/
def extractHalf (budget : Nat) (g : Gen) : Option Extracted := extractLoop budget g Acc.empty

/-- A derived seed and the number of T-steps it took. -/
structure Derived where
  seed : Word
  tSteps : Nat
  deriving DecidableEq, Repr

/-- `derive_seed(n)` within a budget of T-steps: the upper half first, then the lower half from the throwaway state
the first left (41_seed_derivation R120, R131, R132). -/
def deriveSeed (table : Table) (budget : Nat) (n : Word) : Option Derived :=
  match extractHalf budget (initialGen table n) with
  | none => none
  | some up =>
    match extractHalf up.left up.gen with
    | none => none
    | some lo => some { seed := combineHalves up.digits lo.digits, tSteps := budget - lo.left }

end Sys2Proof.Machine
end

