-- ==== Sys2Proof/Safety.lean ====
section
/-! DEFINITION. The terms the statements use: runs of several steps, the digits of a seed, and the invariant of the
machine. -/

namespace Sys2Proof.Machine

/-! Runs -/

/-- The state after `k` steps with the given table; `none` if some step stops (none does). -/
def State.afterWith (table : Table) : Nat → State → Option State
  | 0, s => some s
  | k + 1, s =>
    match stepWith table s with
    | .next t => t.afterWith table k
    | .fault _ => none
    | .refused _ => none

/-- The number of `FETCH` micro-steps among the next `k` steps, that is of T-steps (41_seed_derivation R146). -/
def State.fetchesWith (table : Table) : Nat → State → Nat
  | 0, _ => 0
  | k + 1, s =>
    (if s.phase = .fetch ∧ s.owed = none ∧ s.pins.rst = false then 1 else 0) +
      match stepWith table s with
      | .next t => t.fetchesWith table k
      | .fault _ => 0
      | .refused _ => 0

/-- `rst` is low at this edge and at every coming one. -/
def State.NoReset (s : State) : Prop := s.pins.rst = false ∧ ∀ p ∈ s.pinsNext, p.rst = false

/-- `ent_ack` is low at this edge and at every coming one: the entropy source never answers (00_scope R14). -/
def State.NeverAnswered (s : State) : Prop := s.pins.entAck = false ∧ ∀ p ∈ s.pinsNext, p.entAck = false

/-- A command is accepted at this edge: `cmd_valid` and `cmd_ready` are both 1 (10_state R32). -/
def State.accepts (s : State) : Bool := s.cmdReady && s.presented.isSome

/-- The commands in flight: one that runs and one whose response is owed (10_state R32). -/
def State.inFlight (s : State) : Nat := (if s.phase = .idle then 0 else 1) + (if s.owed = none then 0 else 1)

/-! Digits -/

/-- The eight nibbles of a 32-bit value are pairwise distinct (41_seed_derivation R126). -/
def DistinctDigits (v : Word32) : Prop :=
  ∀ p q : Fin 8, p ≠ q → nibbleAt v (4 * p.val) ≠ nibbleAt v (4 * q.val)

/-- What every derived seed satisfies: it is odd, its upper eight digits are pairwise distinct, and so are digits 1 to
7 of its lower half (41_seed_derivation R134 (a) to (c); not all eight of the lower half, 90_conflicts C2). -/
def SeedShape (v : Word) : Prop :=
  v.getLsbD 0 = true ∧ DistinctDigits (highHalf v) ∧
    ∀ p q : Fin 8, p ≠ 0 → q ≠ 0 → p ≠ q →
      nibbleAt (lowHalf v) (4 * p.val) ≠ nibbleAt (lowHalf v) (4 * q.val)

/-- The slot counter is one of 0, 4, ..., 28 (10_state R29, 90_conflicts C7). -/
def SlotInRange (m : BitVec 6) : Prop := m.toNat % 4 = 0 ∧ m.toNat ≤ 28

/-- An accumulator between micro-steps: the digits packed below the slot counter are pairwise distinct, and they are
the digits the mask has marked (41_seed_derivation R126 to R128). -/
structure Acc.Inv (acc : Acc) : Prop where
  slot : SlotInRange acc.m
  marked : ∀ k : Nibble, acc.used k = true ↔ ∃ p : Fin 8, 4 * p.val < acc.m.toNat ∧ nibbleAt acc.a (4 * p.val) = k
  distinct : ∀ p q : Fin 8, 4 * p.val < acc.m.toNat → 4 * q.val < acc.m.toNat → p ≠ q →
    nibbleAt acc.a (4 * p.val) ≠ nibbleAt acc.a (4 * q.val)

/-! The invariant -/

/-- A derivation is extracting digits. -/
def State.extracting (s : State) : Prop := s.phase = .fetch ∨ s.phase = .scan

/-- The invariant of the machine: what the spec says of its registers between micro-steps. -/
structure State.Inv (s : State) : Prop where
  /-- `M` is one of 0, 4, ..., 28 (10_state R29). -/
  slot : SlotInRange s.m
  /-- `I` is one of 0, 4, ..., 28 (10_state R29). -/
  position : s.i.toNat % 4 = 0
  /-- The digits of the running half are distinct and marked (41_seed_derivation R126). -/
  digits : s.extracting → s.acc.Inv
  /-- The finished upper half has eight distinct digits (41_seed_derivation R134). -/
  upper : s.extracting → s.half = true → DistinctDigits s.uh
  /-- The throwaway increment is odd (41_seed_derivation R123). -/
  increment : s.extracting → s.ts.getLsbD 0 = true
  /-- A seed that can be read satisfies 41_seed_derivation R134 (10_state R25). -/
  seedShape : s.seedv = true → SeedShape s.seed
  /-- While a derivation runs no seed is valid (10_state R25). -/
  seedIdle : s.seedv = true → s.phase = .idle
  /-- A response is owed only where no derivation runs (10_state R31, R32). -/
  owedIdle : s.owed ≠ none → s.phase = .idle
  /-- Only an `RSEED` waits for entropy (10_state R29, 41_seed_derivation R141). -/
  entropy : s.phase = .entWait → s.esrc = true
  /-- An error response carries no data (60_exceptions R170). -/
  owedData : ∀ r, s.owed = some r → r.code ≠ .ok → r.data = 0#64
  /-- The same of the response on the port. -/
  rspData : ∀ r, s.rsp = some r → r.code ≠ .ok → r.data = 0#64

end Sys2Proof.Machine
end

