-- ==== Sys2Proof/Certificates/Slice0/Obligations.lean ====
section
/-! DEFINITION. The statements about the machine, from the numbered rules of spec/. `s.tick` in a next state is what
the outside world does at the edge (Machine/Ports.lean: no register is written); `step` is `stepWith Config.sconst`,
and a statement about a whole derivation holds for every table. -/

open Sys2Proof Sys2Proof.Machine

/-! ## Encoding -/

/-- 30_encoding R80: the fourteen bytes, written out bit by bit from the `binary` column of R72, select their commands
with the operand as it stands, and every other byte is illegal. -/
def Obligations.OpcodeMapDecodes : Prop :=
  ∀ d : Word,
    decode 0b00010000#8 d = .command .step ∧ decode 0b00100000#8 d = .command (.ldx d) ∧
    decode 0b00100001#8 d = .command (.ldw d) ∧ decode 0b00100010#8 d = .command (.lds d) ∧
    decode 0b00100011#8 d = .command (.init d) ∧ decode 0b00110000#8 d = .command .rdx ∧
    decode 0b00110001#8 d = .command .rdw ∧ decode 0b00110010#8 d = .command .rds ∧
    decode 0b00110011#8 d = .command .rdseed ∧ decode 0b00110100#8 d = .command .rdstat ∧
    decode 0b01000000#8 d = .command (.derive d) ∧ decode 0b01000001#8 d = .command .rseed ∧
    decode 0b01010000#8 d = .command .inits ∧ decode 0b01100000#8 d = .command .clrerr ∧
    ∀ b : Byte, b ∉ legalBytes → decode b d = .illegal

/-- Decoding an encoded command gives it back; and a byte and operand decode to a command exactly when the byte is the
command's and, in format `D`, the operand too (30_encoding R70 to R72, R80). -/
def Obligations.DecodeEncodeAgree : Prop :=
  (∀ i : Instr, decode (encode i).1 (encode i).2 = .command i) ∧
  (∀ (b : Byte) (d : Word) (i : Instr), decode b d = .command i ↔
    b = (encode i).1 ∧ (formatOf i = .data → operandOf i = some d)) ∧
  (∀ i : Instr, formatOf i = .zero ↔ operandOf i = none) ∧
  (∀ i : Instr, commandByte (opcField (encode i).1) (selField (encode i).1) = (encode i).1)

/-- The illegal bytes are the eight ranges of 30_encoding R74, 242 values; fourteen bytes select a command. -/
def Obligations.IllegalBytesAreTheListedRanges : Prop :=
  ∀ d : Word,
    (∀ b : Byte, decode b d = .illegal ↔
      b.toNat ≤ 0x0F ∨ (0x11 ≤ b.toNat ∧ b.toNat ≤ 0x1F) ∨ (0x24 ≤ b.toNat ∧ b.toNat ≤ 0x2F) ∨
      (0x35 ≤ b.toNat ∧ b.toNat ≤ 0x3F) ∨ (0x42 ≤ b.toNat ∧ b.toNat ≤ 0x4F) ∨
      (0x51 ≤ b.toNat ∧ b.toNat ≤ 0x5F) ∨ (0x61 ≤ b.toNat ∧ b.toNat ≤ 0x6F) ∨ 0x70 ≤ b.toNat) ∧
    ((List.range 256).countP fun n => decide (decode (BitVec.ofNat 8 n) d = .illegal)) = 242

/-- 30_encoding R71: whatever the host drives on `cmd_data` beside a format `Z` command, or beside an illegal byte
(R74), the step is the same. -/
def Obligations.IgnoredOperandHasNoEffect : Prop :=
  ∀ (s : State) (op : Byte) (d d' : Word) (rest : List HostMove),
    s.cmdReady = true → (∀ i, decode op d = .command i → formatOf i = .zero) →
    step { s with host := .issue op d :: rest } = step { s with host := .issue op d' :: rest }

/-! ## Steps, ports and reset -/

/-- A step at which the engine is ready and the host presents a command runs the command `decode` reads from it, on
the state in which the command is gone from the port, the earlier pulse is over and the pins have their next levels
(10_state R32, 41_seed_derivation R140). -/
def Obligations.StepRunsTheDecodedCommand : Prop :=
  ∀ (s : State) (op : Byte) (d : Word) (rest : List HostMove) (i : Instr),
    s.pins.rst = false → s.phase = .idle → s.owed = none → s.host = .issue op d :: rest →
    decode op d = .command i →
    step s = exec i { s with
      rsp := none
      host := rest
      pins := s.pinsNext.headD s.pins
      pinsNext := s.pinsNext.tail }

/-- 60_exceptions R173: accepting an illegal byte sets `EILL`, responds `(ILL, 0)` and changes nothing else. -/
def Obligations.IllegalByteRaisesIll : Prop :=
  ∀ (s : State) (op : Byte) (d : Word) (rest : List HostMove),
    s.pins.rst = false → s.phase = .idle → s.owed = none → s.host = .issue op d :: rest →
    op ∉ legalBytes →
    step s = .next { s.tick with eill := true, owed := some ⟨.ill, 0#64⟩ }

/-- With no command presented an idle engine waits: no register changes (70_reset_and_hazards R190). -/
def Obligations.IdleEngineWaits : Prop :=
  ∀ s : State, s.pins.rst = false → s.phase = .idle → s.owed = none → s.presented = none →
    step s = .next s.tick

/-- A command presented while `cmd_ready` is 0 is not accepted, stays on the port, and has no effect on the step: the next
state is, but for the port, that of the same step with nothing presented (70_reset_and_hazards R194). That this holds
of a reset edge too is the model's reading, which R194 does not speak of (DEDUCED, log entry 15). -/
def Obligations.PresentedCommandIsHeldWhileBusy : Prop :=
  ∀ (s t : State) (op : Byte) (d : Word) (rest : List HostMove),
    s.busy = true → s.host = .issue op d :: rest → step s = .next t →
    s.accepts = false ∧ t.host = s.host ∧
    ∃ u, step { s with host := [] } = .next u ∧ t = { u with host := t.host }

/-- An owed response is given by the next step that is no reset: `rsp_valid` with its code and data, no register
changed, and the engine is ready again (10_state R32; that one step later the pulse is over is the model's reading of
"exactly one clock cycle", log entry 1). -/
def Obligations.OwedResponseIsGivenForOneStep : Prop :=
  (∀ (s : State) (r : Response), s.pins.rst = false → s.owed = some r → ∃ t, step s = .next t ∧
    t = { s.tick with owed := none, rsp := some r, responses := s.responses ++ [r] } ∧
    t.rspValid = true ∧ t.rspCode = r.code.bits ∧ t.rspData = r.data ∧
    (s.phase = .idle → t.busy = false)) ∧
  (∀ s t : State, step s = .next t → s.owed = none ∨ s.pins.rst = true →
    t.rspValid = false ∧ t.rspCode = 0#2 ∧ t.rspData = 0#64)

/-- Commands accepted, commands in flight and responses given stay in balance at every step without a reset, and at
most one command is in flight: no response is given twice or without a command (60_exceptions R170, 10_state R32).
That every command responds is not claimed: one may never (00_scope R14). The count of responses is the model's own
record (log entry 10). -/
def Obligations.CommandsAndResponsesBalance : Prop :=
  ∀ s t : State, s.Inv → s.pins.rst = false → step s = .next t →
    s.inFlight ≤ 1 ∧
    t.responses.length + t.inFlight = s.responses.length + s.inFlight + (if s.accepts then 1 else 0)

/-- `rst = 1` at an edge gives every register its reset value, whatever the phase and whatever is presented, and no
response of a running command ever comes (10_state R34, 70_reset_and_hazards R190, R192). -/
def Obligations.ResetEdgeClearsEveryRegister : Prop :=
  ∀ s : State, s.pins.rst = true → ∃ t, step s = .next t ∧
    t = { State.reset with
      host := t.host, pins := s.pinsNext.headD s.pins, pinsNext := s.pinsNext.tail, responses := s.responses } ∧
    t.cmdReady = true ∧ t.busy = false ∧ t.rspValid = false ∧ t.entReq = false ∧ t.status = 0#64

/-- 10_state R36: what every register and every output is after reset, and that no command can observe the zeros in
`X`, `W`, `S` and `SEED`: every command that reads one of them raises `INV`. -/
def Obligations.ResetValues : Prop :=
  let s := State.reset
  s.x = 0#64 ∧ s.w = 0#64 ∧ s.s = 0#64 ∧ s.xv = false ∧ s.wv = false ∧ s.sv = false ∧ s.seed = 0#64 ∧
  s.seedv = false ∧ s.eill = false ∧ s.einv = false ∧ s.eent = false ∧ s.tx = 0#64 ∧ s.tw = 0#64 ∧ s.ts = 0#64 ∧
  s.nreg = 0#64 ∧ s.a = 0#32 ∧ s.c = 0#16 ∧ s.m = 0#6 ∧ s.j = 0#32 ∧ s.i = 0#5 ∧ s.half = false ∧ s.uh = 0#32 ∧
  s.esrc = false ∧ s.phase = .idle ∧ s.cmdReady = true ∧ s.busy = false ∧ s.rspValid = false ∧ s.rspCode = 0#2 ∧
  s.rspData = 0#64 ∧ s.entReq = false ∧ s.status = 0#64 ∧
  ∀ i, i = .step ∨ i = .rdx ∨ i = .rdw ∨ i = .rds ∨ i = .rdseed ∨ i = .inits →
    exec i s = .next { s with einv := true, owed := some ⟨.inv, 0#64⟩ }

/-- Nothing stops the machine: every state has a next state. An error leaves the engine ready (60_exceptions R172). That
a step which only waits is a next state too, where R142 says that no micro-step is enabled and 93 U11 says stuck, is
the model's choice (DEDUCED, log entry 9). -/
def Obligations.EveryStateHasANextState : Prop :=
  ∀ s : State, ∃ t, step s = .next t

/-! ## The step function and the commands of the generator -/

/-- 40_core_generator R90, in natural numbers: `x3` is the sum `x * x + (w + s)` modulo 2^64 with its halves
exchanged, `w1` is `w + s` modulo 2^64, `s` is unchanged, and the output is the low half of `x3`, the upper half of
the sum. -/
def Obligations.StepFunctionArithmetic : Prop :=
  ∀ g : Gen,
    let sum := (g.x.toNat * g.x.toNat + (g.w.toNat + g.s.toNat) % 2 ^ 64) % 2 ^ 64
    (mswsNext g).x.toNat = sum % 2 ^ 32 * 2 ^ 32 + sum / 2 ^ 32 ∧
    (mswsNext g).w.toNat = (g.w.toNat + g.s.toNat) % 2 ^ 64 ∧ (mswsNext g).s = g.s ∧
    (mswsOut g).toNat = (mswsNext g).x.toNat % 2 ^ 32 ∧ (mswsOut g).toNat = sum / 2 ^ 32

/-- 40_core_generator R98: the six corner cases, with their new states and outputs. -/
def Obligations.StepFunctionCornerCases : Prop :=
  (mswsNext ⟨1#64, 1#64, 1#64⟩ = ⟨0x300000000#64, 2#64, 1#64⟩ ∧ mswsOut ⟨1#64, 1#64, 1#64⟩ = 0#32) ∧
  (mswsNext ⟨0#64, 0#64, 0#64⟩ = ⟨0#64, 0#64, 0#64⟩ ∧ mswsOut ⟨0#64, 0#64, 0#64⟩ = 0#32) ∧
  (mswsNext ⟨-1#64, -1#64, -1#64⟩ = ⟨0xFFFFFFFFFFFFFFFF#64, 0xFFFFFFFFFFFFFFFE#64, -1#64⟩ ∧
    mswsOut ⟨-1#64, -1#64, -1#64⟩ = 0xFFFFFFFF#32) ∧
  (mswsNext ⟨0xFFFFFFFF#64, 0#64, 1#64⟩ = ⟨0x00000002FFFFFFFE#64, 1#64, 1#64⟩ ∧
    mswsOut ⟨0xFFFFFFFF#64, 0#64, 1#64⟩ = 0xFFFFFFFE#32) ∧
  (mswsNext ⟨0x100000000#64, -1#64, 1#64⟩ = ⟨0#64, 0#64, 1#64⟩ ∧ mswsOut ⟨0x100000000#64, -1#64, 1#64⟩ = 0#32) ∧
  (mswsNext ⟨-1#64, -2#64, 1#64⟩ = ⟨0#64, -1#64, 1#64⟩ ∧ mswsOut ⟨-1#64, -2#64, 1#64⟩ = 0#32)

/-- After `k` steps the accumulator has advanced by `k` increments modulo 2^64 and the increment is the same
(40_core_generator R92, R96 (c)). -/
def Obligations.WeylAccumulatorAdvancesByTheIncrement : Prop :=
  ∀ (k : Nat) (g : Gen),
    ((mswsNext^[k]) g).w = g.w + BitVec.ofNat 64 k * g.s ∧ ((mswsNext^[k]) g).s = g.s

/-- `STEP` on a constructed generator answers a next state: `X` and `W` advance by the step function, the response is
`(OK, zext_64(out))`, and nothing else changes (40_core_generator R95, R99). -/
def Obligations.StepAdvancesTheGenerator : Prop :=
  ∀ s : State, s.xv = true → s.wv = true → s.sv = true → ∃ (x3 w1 data : Word),
    let sum := (s.x.toNat * s.x.toNat + (s.w.toNat + s.s.toNat) % 2 ^ 64) % 2 ^ 64
    exec .step s = .next { s with x := x3, w := w1, owed := some ⟨.ok, data⟩ } ∧
    x3.toNat = sum % 2 ^ 32 * 2 ^ 32 + sum / 2 ^ 32 ∧ w1.toNat = (s.w.toNat + s.s.toNat) % 2 ^ 64 ∧
    data.toNat = sum / 2 ^ 32 ∧ (∀ b, b < 32 → data.getLsbD b = x3.getLsbD b) ∧
    (∀ b, 32 ≤ b → data.getLsbD b = false)

/-- 40_core_generator R100 to R102: `LDX`, `LDW`, `LDS` write one word and its valid bit, for every value, and respond
`(OK, 0)`; nothing else changes. -/
def Obligations.LoadsWriteOneWord : Prop :=
  ∀ (s : State) (v : Word),
    exec (.ldx v) s = .next { s with x := v, xv := true, owed := some ⟨.ok, 0#64⟩ } ∧
    exec (.ldw v) s = .next { s with w := v, wv := true, owed := some ⟨.ok, 0#64⟩ } ∧
    exec (.lds v) s = .next { s with s := v, sv := true, owed := some ⟨.ok, 0#64⟩ }

/-- `INIT v` sets all three words and their valid bits and responds `(OK, 0)` (40_core_generator R103). -/
def Obligations.InitConstructsTheGenerator : Prop :=
  ∀ (s : State) (v : Word),
    exec (.init v) s = .next
      { s with x := v, w := v, s := v, xv := true, wv := true, sv := true, owed := some ⟨.ok, 0#64⟩ }

/-- `INITS` constructs the generator from a valid `SEED`, which it keeps, and the increment it loads is odd in every
state the invariant allows; without a valid seed it raises `INV` and writes none of the words (40_core_generator
R104). -/
def Obligations.InitsConstructsFromTheSeed : Prop :=
  ∀ s : State,
    (s.seedv = true → exec .inits s = .next
      { s with
        x := s.seed, w := s.seed, s := s.seed, xv := true, wv := true, sv := true, owed := some ⟨.ok, 0#64⟩ }) ∧
    (s.Inv → s.seedv = true → s.seed.getLsbD 0 = true) ∧
    (s.seedv = false → exec .inits s = .next
      { s with einv := true, phase := .idle, owed := some ⟨.inv, 0#64⟩ })

/-- Reseed is never implicit: a step without a reset that changes `S` accepts `LDS`, `INIT` or `INITS`; one that
changes `X` or `W` accepts one of their writers; one that changes `SEED` is the last micro-step of a derivation
(40_core_generator R105, 10_state R21 to R25). -/
def Obligations.GeneratorChangesOnlyByItsWriters : Prop :=
  ∀ s t : State, s.pins.rst = false → step s = .next t →
    (t.s ≠ s.s → s.cmdReady = true ∧
      ∃ op d, s.presented = some (op, d) ∧ (op = 0x22#8 ∨ op = 0x23#8 ∨ op = 0x50#8)) ∧
    (t.x ≠ s.x → s.cmdReady = true ∧
      ∃ op d, s.presented = some (op, d) ∧ (op = 0x10#8 ∨ op = 0x20#8 ∨ op = 0x23#8 ∨ op = 0x50#8)) ∧
    (t.w ≠ s.w → s.cmdReady = true ∧
      ∃ op d, s.presented = some (op, d) ∧ (op = 0x10#8 ∨ op = 0x21#8 ∨ op = 0x23#8 ∨ op = 0x50#8)) ∧
    (t.seed ≠ s.seed → s.phase = .scan ∧ s.half = true ∧ s.owed = none ∧ t.seedv = true ∧ t.phase = .idle)

/-! ## Reads, flags and errors -/

/-- `RDX`, `RDW`, `RDS`, `RDSEED` of a register whose valid bit is 1 respond with it and change nothing (42_system R160
to R163). -/
def Obligations.ReadsRespondWithTheRegister : Prop :=
  ∀ s : State,
    (s.xv = true → exec .rdx s = .next { s with owed := some ⟨.ok, s.x⟩ }) ∧
    (s.wv = true → exec .rdw s = .next { s with owed := some ⟨.ok, s.w⟩ }) ∧
    (s.sv = true → exec .rds s = .next { s with owed := some ⟨.ok, s.s⟩ }) ∧
    (s.seedv = true → exec .rdseed s = .next { s with owed := some ⟨.ok, s.seed⟩ })

/-- 60_exceptions R174: a command that must read a register whose valid bit is 0 sets `EINV`, responds `(INV, 0)` and
changes nothing else (the engine is idle when a command is accepted and `raise` leaves it idle). -/
def Obligations.UnwrittenRegisterRaisesInv : Prop :=
  ∀ s : State,
    let failed := Host.Outcome.next (φ := Fault) (ρ := Refusal)
      { s with einv := true, phase := .idle, owed := some ⟨.inv, 0#64⟩ }
    (s.xv = false ∨ s.wv = false ∨ s.sv = false → exec .step s = failed) ∧
    (s.xv = false → exec .rdx s = failed) ∧ (s.wv = false → exec .rdw s = failed) ∧
    (s.sv = false → exec .rds s = failed) ∧ (s.seedv = false → exec .rdseed s = failed) ∧
    (s.seedv = false → exec .inits s = failed)

/-- `RDSTAT` always responds `(OK, STATUS)` and changes nothing; the bits of `STATUS` are those of 10_state R26, bits
63:7 zero (42_system R164). -/
def Obligations.RdstatReportsTheStatusBits : Prop :=
  ∀ s : State, ∃ data : Word, exec .rdstat s = .next { s with owed := some ⟨.ok, data⟩ } ∧
    data.getLsbD 0 = s.xv ∧ data.getLsbD 1 = s.wv ∧ data.getLsbD 2 = s.sv ∧ data.getLsbD 3 = s.seedv ∧
    data.getLsbD 4 = s.eill ∧ data.getLsbD 5 = s.einv ∧ data.getLsbD 6 = s.eent ∧
    ∀ b, 7 ≤ b → data.getLsbD b = false

/-- `CLRERR` clears the three sticky flags, keeps the valid bits and responds `(OK, 0)` (42_system R165). -/
def Obligations.ClrerrClearsTheStickyFlags : Prop :=
  ∀ s : State, exec .clrerr s = .next
    { s with eill := false, einv := false, eent := false, owed := some ⟨.ok, 0#64⟩ }

/-- A sticky flag that a step without a reset clears was cleared by an accepted `CLRERR`; one that it sets was set by
its own error, whose response is owed (10_state R27, 60_exceptions R171, R172). -/
def Obligations.StickyFlagsChangeOnlyByErrorsAndClrerr : Prop :=
  ∀ s t : State, s.pins.rst = false → step s = .next t →
    ((s.eill = true ∧ t.eill = false ∨ s.einv = true ∧ t.einv = false ∨ s.eent = true ∧ t.eent = false) →
      s.cmdReady = true ∧ ∃ d, s.presented = some (0x60#8, d)) ∧
    (s.eill = false → t.eill = true → t.owed = some ⟨.ill, 0#64⟩) ∧
    (s.einv = false → t.einv = true → t.owed = some ⟨.inv, 0#64⟩) ∧
    (s.eent = false → t.eent = true → t.owed = some ⟨.ent, 0#64⟩ ∧ s.phase = .entWait)

/-- No command's behaviour depends on the sticky flags, but for what `RDSTAT` reports: with other flags a command gives
the same next state but for the flags themselves (10_state R27, 60_exceptions R179). -/
def Obligations.StickyFlagsInfluenceNothing : Prop :=
  ∀ (i : Instr) (s t : State) (f g h : Bool), i ≠ .rdstat → exec i s = .next t →
    ∃ u, exec i { s with eill := f, einv := g, eent := h } = .next u ∧
      t = { u with eill := t.eill, einv := t.einv, eent := t.eent } ∧
      (u.eill = t.eill ∨ u.eill = f) ∧ (u.einv = t.einv ∨ u.einv = g) ∧ (u.eent = t.eent ∨ u.eent = h)

/-- The valid bits of the primary registers are cleared by nothing but reset, and set only by an accepted command that
writes their register (10_state R24). -/
def Obligations.ValidBitsAreClearedOnlyByReset : Prop :=
  ∀ s t : State, s.pins.rst = false → step s = .next t →
    (s.xv = true → t.xv = true) ∧ (s.wv = true → t.wv = true) ∧ (s.sv = true → t.sv = true) ∧
    (s.xv = false → t.xv = true → s.cmdReady = true ∧
      ∃ op d, s.presented = some (op, d) ∧ (op = 0x20#8 ∨ op = 0x23#8 ∨ op = 0x50#8)) ∧
    (s.wv = false → t.wv = true → s.cmdReady = true ∧
      ∃ op d, s.presented = some (op, d) ∧ (op = 0x21#8 ∨ op = 0x23#8 ∨ op = 0x50#8)) ∧
    (s.sv = false → t.sv = true → s.cmdReady = true ∧
      ∃ op d, s.presented = some (op, d) ∧ (op = 0x22#8 ∨ op = 0x23#8 ∨ op = 0x50#8))

/-! ## Frames -/

/-- No command, when accepted, writes `SEED`, a hidden working register other than `NREG` and `ESRC`, the response port
or the outside world; only `DERIVE` writes `NREG`, and only `DERIVE` and `RSEED` write `ESRC` and `SEEDV`, and take `PHASE` out
of `IDLE`: every other command leaves it, or leaves it `IDLE` where it raises an error (10_state R20, R28, R29, R31,
60_exceptions R172, 41_seed_derivation R141). -/
def Obligations.CommandsLeaveTheHiddenRegisters : Prop :=
  ∀ (i : Instr) (s t : State), exec i s = .next t →
    t.seed = s.seed ∧ t.tx = s.tx ∧ t.tw = s.tw ∧ t.ts = s.ts ∧ t.a = s.a ∧ t.c = s.c ∧ t.m = s.m ∧ t.j = s.j ∧
    t.i = s.i ∧ t.half = s.half ∧ t.uh = s.uh ∧ t.rsp = s.rsp ∧ t.host = s.host ∧ t.pins = s.pins ∧
    t.pinsNext = s.pinsNext ∧ t.responses = s.responses ∧
    ((∀ n, i ≠ .derive n) → t.nreg = s.nreg) ∧
    ((∀ n, i ≠ .derive n) → i ≠ .rseed →
      t.esrc = s.esrc ∧ t.seedv = s.seedv ∧ (t.phase = s.phase ∨ t.phase = .idle)) ∧
    (∀ n, i = .derive n → t.phase = .setup) ∧ (i = .rseed → t.phase = .entWait)

/-- Reads change no state but for what they owe and, where they fail, `EINV` (20_memory R55, 42_system R160 to R164). -/
def Obligations.ReadsChangeNoRegister : Prop :=
  ∀ (i : Instr) (s t : State),
    i = .rdx ∨ i = .rdw ∨ i = .rds ∨ i = .rdseed ∨ i = .rdstat → s.phase = .idle → exec i s = .next t →
    t = { s with einv := t.einv, owed := t.owed } ∧ (t.einv = s.einv ∨ t.einv = true) ∧
    ∃ r, t.owed = some r ∧ (r.code = .ok ∧ t.einv = s.einv ∨ r.code = .inv ∧ t.einv = true ∧ r.data = 0#64)

/-- While a derivation runs, no micro-step touches the primary generator, its valid bits, `EILL` or `EINV`, and no
command is accepted (10_state R28, R31, 40_core_generator R105). -/
def Obligations.DerivationLeavesThePrimaryGenerator : Prop :=
  ∀ s t : State, s.pins.rst = false → s.phase ≠ .idle → step s = .next t →
    t.x = s.x ∧ t.w = s.w ∧ t.s = s.s ∧ t.xv = s.xv ∧ t.wv = s.wv ∧ t.sv = s.sv ∧ t.eill = s.eill ∧
    t.einv = s.einv ∧ t.esrc = s.esrc ∧ s.busy = true ∧
    (∀ op d rest, s.host = .issue op d :: rest → t.host = s.host)

/-! ## Seed derivation -/

/-- 41_seed_derivation R141: what accepting `DERIVE n` and `RSEED` does; no response is owed for it yet. -/
def Obligations.DerivationsStartAtAcceptance : Prop :=
  (∀ (s : State) (n : Word), exec (.derive n) s = .next
    { s with nreg := n, esrc := false, seedv := false, phase := .setup }) ∧
  (∀ s : State, exec .rseed s = .next { s with esrc := true, seedv := false, phase := .entWait })

/-- 41_seed_derivation R142: the micro-step in `ENTWAIT` on a value and on a failure, and what stays without an answer:
`ENTWAIT`, `ent_req` and `busy`. R142 says that no micro-step is enabled while there is no answer; that the model takes a
step there, in which no register changes, is its own choice (DEDUCED, log entry 9). -/
def Obligations.EntropyAnswerMicroStep : Prop :=
  ∀ s : State, s.pins.rst = false → s.owed = none → s.phase = .entWait →
    s.entReq = true ∧ s.busy = true ∧
    (s.pins.entAck = true → s.pins.entFail = false →
      step s = .next { s.tick with nreg := s.pins.entData, phase := .setup }) ∧
    (s.pins.entAck = true → s.pins.entFail = true →
      step s = .next { s.tick with eent := true, phase := .idle, owed := some ⟨.ent, 0#64⟩ }) ∧
    (s.pins.entAck = false → step s = .next s.tick)

/-- An `RSEED` that is never answered waits for ever: `busy` and `ent_req` stay 1, no response is given, no flag is set,
the host's command is not taken (60_exceptions R180, 00_scope R14). -/
def Obligations.UnansweredEntropyRequestHangs : Prop :=
  ∀ s : State, s.phase = .entWait → s.owed = none → s.NoReset → s.NeverAnswered → ∀ k : Nat,
    ∃ t, s.afterWith Config.sconst k = some t ∧ t.phase = .entWait ∧ t.busy = true ∧ t.entReq = true ∧
      t.responses = s.responses ∧ t.status = s.status ∧
      (∀ op d rest, s.host = .issue op d :: rest → t.host = s.host)

/-- A failed `RSEED` never constructs a generator: the `INITS` that follows it in `NEWGENR` raises `INV` and leaves the
primary generator as it was (30_encoding R79, 70_reset_and_hazards R195). That this takes three steps (the failure, the
giving of its response, the acceptance of `INITS`) is the model's own measure, not a latency (DESIGN CHOICE, log entry 1). -/
def Obligations.FailedEntropyNeverConstructs : Prop :=
  ∀ (s : State) (d : Word) (rest : List HostMove),
    s.phase = .entWait → s.owed = none → s.seedv = false → s.NoReset → s.pins.entAck = true →
    s.pins.entFail = true → s.host = .issue 0x50#8 d :: rest →
    ∃ t, s.afterWith Config.sconst 3 = some t ∧ t.x = s.x ∧ t.w = s.w ∧ t.s = s.s ∧ t.xv = s.xv ∧ t.wv = s.wv ∧
      t.sv = s.sv ∧ t.seedv = false ∧ t.eent = true ∧ t.einv = true ∧ t.owed = some ⟨.inv, 0#64⟩ ∧
      t.responses = s.responses ++ [⟨.ent, 0#64⟩] ∧ t.host = rest

/-- 41_seed_derivation R121 to R124, 20_memory R52, in natural numbers: the decimal split of the normalised index is
exact, its parts have the stated bounds, and the table index is in range. That 2^63 is its own normal form, read as
unsigned, is decision D21 (DEDUCED, log entry 7). -/
def Obligations.DecimalSplitIsExact : Prop :=
  ∀ n : Word,
    let n1 := if n.toNat < 2 ^ 63 then n.toNat else 2 ^ 64 - n.toNat
    (normalise n).toNat = n1 ∧
    n1 = (indexQuotient n).toNat * 100000000 + (indexRemainder n).toNat ∧
    (indexRemainder n).toNat ≤ 99999999 ∧ (indexQuotient n).toNat ≤ 92233720368 ∧
    (tableIndex n).val = n1 / 100000000 % 30 ∧
    (reducedQuotient n).toNat = n1 / 100000000 / 30 ∧ (reducedQuotient n).toNat ≤ 3074457345 ∧
    (n1 < 3000000000 → (tableIndex n).val = (indexQuotient n).toNat ∧ (reducedQuotient n).toNat = 0)

/-- 41_seed_derivation R143: the micro-step in `SETUP`, with the values of R120 to R125 in natural numbers. -/
def Obligations.SetupMicroStep : Prop :=
  ∀ (s : State) (index : TableIndex),
    let n1 := if s.nreg.toNat < 2 ^ 63 then s.nreg.toNat else 2 ^ 64 - s.nreg.toNat
    let tc := (Config.sconst index).toNat
    s.pins.rst = false → s.owed = none → s.phase = .setup → index.val = n1 / 100000000 % 30 →
    ∃ x0 : Word,
      x0.toNat = (n1 % 100000000 * tc + 100000000 * (n1 / 100000000 / 30 * tc)) % 2 ^ 64 ∧
      step s = .next { s.tick with
        tx := x0, tw := x0, ts := Config.sconst index, half := false, a := 0#32, c := 0#16, m := 0#6
        phase := .fetch }

/-- 41_seed_derivation R144: the micro-step in `FETCH` is one T-step of the throwaway generator. -/
def Obligations.FetchMicroStep : Prop :=
  ∀ s : State, s.pins.rst = false → s.owed = none → s.phase = .fetch → ∃ (x3 w1 : Word) (out : Word32),
    let sum := (s.tx.toNat * s.tx.toNat + (s.tw.toNat + s.ts.toNat) % 2 ^ 64) % 2 ^ 64
    x3.toNat = sum % 2 ^ 32 * 2 ^ 32 + sum / 2 ^ 32 ∧ w1.toNat = (s.tw.toNat + s.ts.toNat) % 2 ^ 64 ∧
    out.toNat = sum / 2 ^ 32 ∧
    step s = .next { s.tick with tx := x3, tw := w1, j := out, i := 0#5, phase := .scan }

/-- 41_seed_derivation R145: the micro-step in `SCAN`, bit by bit. `k` is the nibble `J[I+3:I]`, `a1` is `A` with slot
`M` replaced by `k`, `c1` is `C` with bit `k` set, `v` is `{UH, a1[31:1], 1}`. `M` and `I` are in their ranges (10_state R29, log entry 6). -/
def Obligations.ScanMicroStep : Prop :=
  ∀ (s : State) (k : Nibble) (a1 : Word32) (c1 : BitVec 16) (v : Word),
    s.pins.rst = false → s.owed = none → s.phase = .scan → SlotInRange s.m → s.i.toNat % 4 = 0 →
    (∀ b, b < 4 → k.getLsbD b = s.j.getLsbD (s.i.toNat + b)) →
    (∀ b, b < 32 → a1.getLsbD b =
      if s.m.toNat ≤ b ∧ b < s.m.toNat + 4 then k.getLsbD (b - s.m.toNat) else s.a.getLsbD b) →
    (∀ b, b < 16 → c1.getLsbD b = (s.c.getLsbD b || b == k.toNat)) →
    (∀ b, b < 64 → v.getLsbD b =
      (b == 0 || if b < 32 then a1.getLsbD b else s.uh.getLsbD (b - 32))) →
    (s.c.getLsbD k.toNat = true → s.i ≠ 28#5 → step s = .next { s.tick with i := s.i + 4#5 }) ∧
    (s.c.getLsbD k.toNat = true → s.i = 28#5 → step s = .next { s.tick with phase := .fetch }) ∧
    (s.c.getLsbD k.toNat = false → s.m ≠ 28#6 → s.i ≠ 28#5 →
      step s = .next { s.tick with a := a1, c := c1, m := s.m + 4#6, i := s.i + 4#5 }) ∧
    (s.c.getLsbD k.toNat = false → s.m ≠ 28#6 → s.i = 28#5 →
      step s = .next { s.tick with a := a1, c := c1, m := s.m + 4#6, phase := .fetch }) ∧
    (s.c.getLsbD k.toNat = false → s.m = 28#6 → s.half = false →
      step s = .next { s.tick with
        uh := a1, half := true, a := 0#32, c := 0#16, m := 0#6, phase := .fetch }) ∧
    (s.c.getLsbD k.toNat = false → s.m = 28#6 → s.half = true →
      step s = .next { s.tick with seed := v, seedv := true, phase := .idle, owed := some ⟨.ok, v⟩ })

/-- 41_seed_derivation R146: from `SETUP` the micro-steps reach `IDLE` exactly if `derive_seed(NREG)` ends, and then
`SEED` is its value, `SEEDV` is set, `(OK, SEED)` is owed, and the number of `FETCH` micro-steps is the number of
T-steps; if it does not end, the sequencer stays in `FETCH` and `SCAN` for ever, busy and without a response. For
every table. -/
def Obligations.SequencerAgreesWithTheFunction : Prop :=
  ∀ (table : Table) (s : State), s.phase = .setup → s.owed = none → s.NoReset →
    (∀ d : Derived, (∃ budget, deriveSeed table budget s.nreg = some d) ↔
      ∃ k t, s.afterWith table k = some t ∧ t.phase = .idle ∧
        (∀ l, l < k → ∃ u, s.afterWith table l = some u ∧ u.phase ≠ .idle) ∧
        t.seed = d.seed ∧ t.seedv = true ∧ t.owed = some ⟨.ok, d.seed⟩ ∧ s.fetchesWith table k = d.tSteps) ∧
    ((∃ k t, s.afterWith table k = some t ∧ t.phase = .idle) → ∃ budget d, deriveSeed table budget s.nreg = some d) ∧
    ((∀ budget, deriveSeed table budget s.nreg = none) → ∀ k, ∃ t, s.afterWith table (k + 1) = some t ∧
      (t.phase = .fetch ∨ t.phase = .scan) ∧ t.busy = true ∧ t.owed = none ∧ t.rspValid = false ∧
      t.responses = s.responses)

/-- A derivation reads nothing but its index and the table: two states about to set up the same index, however they
differ otherwise, run in step and end with the same seed and the same response (41_seed_derivation R137, 10_state
R37). -/
def Obligations.DerivationDependsOnItsIndexAlone : Prop :=
  ∀ (table : Table) (s s' : State), s.phase = .setup → s'.phase = .setup → s.owed = none → s'.owed = none →
    s.NoReset → s'.NoReset → s.nreg = s'.nreg →
    ∀ (k : Nat) (t : State), s.afterWith table k = some t → t.phase = .idle →
      (∀ l, l < k → ∃ u, s.afterWith table l = some u ∧ u.phase ≠ .idle) →
      ∃ t', s'.afterWith table k = some t' ∧ t'.phase = .idle ∧ t'.seed = t.seed ∧ t'.seedv = true ∧
        t'.owed = t.owed

/-- 41_seed_derivation R134: what every result of `derive_seed` satisfies, for every index and every table. `up` and `lo`
are the two halves as `extract_half` answers them, before bit 0 is forced. -/
def Obligations.DerivedSeedShape : Prop :=
  ∀ (table : Table) (budget : Nat) (n : Word) (d : Derived), deriveSeed table budget n = some d →
    ∃ up lo : Extracted, extractHalf budget (initialGen table n) = some up ∧
      extractHalf up.left up.gen = some lo ∧ d.seed = combineHalves up.digits lo.digits ∧
      d.seed.getLsbD 0 = true ∧ highHalf d.seed = up.digits ∧ DistinctDigits (highHalf d.seed) ∧
      DistinctDigits lo.digits ∧
      (∀ p : Fin 8, p ≠ 0 → nibbleAt (lowHalf d.seed) (4 * p.val) = nibbleAt lo.digits (4 * p.val)) ∧
      nibbleAt (lowHalf d.seed) 0 = nibbleAt lo.digits 0 ||| 1#4 ∧
      (lo.digits.getLsbD 0 = true → lowHalf d.seed = lo.digits ∧ DistinctDigits (lowHalf d.seed)) ∧
      (lo.digits.getLsbD 0 = false → nibbleAt (lowHalf d.seed) 0 = nibbleAt lo.digits 0 + 1#4 ∧
        ((∃ p : Fin 8, p ≠ 0 ∧ nibbleAt (lowHalf d.seed) (4 * p.val) = nibbleAt (lowHalf d.seed) 0) ↔
          ∃ p : Fin 8, p ≠ 0 ∧ nibbleAt lo.digits (4 * p.val) = nibbleAt lo.digits 0 + 1#4))

/-- The source's claim that the lower half of every derived seed has eight distinct digits, which 90_conflicts C2 says
does not hold: expected to fail. -/
def Obligations.LowerHalfDigitsAlwaysDistinct : Prop :=
  ∀ (table : Table), (∀ index, (table index).getLsbD 0 = true) →
    ∀ (budget : Nat) (n : Word) (d : Derived), deriveSeed table budget n = some d → DistinctDigits (lowHalf d.seed)

/-- 41_seed_derivation R121: an index below 2^63 is its own normal form, one above is negated, and an index and its
negation give one seed with every table. The clause on 2^63 itself, which the source leaves open, is decision D21 of
92_eei_decisions (DEDUCED, log entry 7). -/
def Obligations.IndexAndNegationGiveOneSeed : Prop :=
  (∀ n : Word, n.toNat < 2 ^ 63 → normalise n = n) ∧
  (∀ n : Word, 2 ^ 63 < n.toNat → (normalise n).toNat = 2 ^ 64 - n.toNat ∧ (normalise n).toNat < 2 ^ 63) ∧
  (∀ n : Word, n.toNat = 2 ^ 63 → normalise n = n ∧ (indexQuotient n).toNat = 92233720368 ∧
    (indexRemainder n).toNat = 54775808 ∧ (tableIndex n).val = 18) ∧
  (∀ n : Word, normalise (-n) = normalise n) ∧
  (∀ (table : Table) (budget : Nat) (n : Word), deriveSeed table budget (-n) = deriveSeed table budget n)

/-- A derivation takes at least two T-steps (41_seed_derivation R130, R135, 70_reset_and_hazards R205). The clauses on the
budget are about the model's own measure of a loop without a bound (DEDUCED, log entry 11): a larger budget does not
change the result, and the T-steps taken are exactly the budget needed. -/
def Obligations.DerivationTakesAtLeastTwoTSteps : Prop :=
  ∀ (table : Table) (budget : Nat) (n : Word) (d : Derived), deriveSeed table budget n = some d →
    2 ≤ d.tSteps ∧ d.tSteps ≤ budget ∧
    (∀ more, deriveSeed table (budget + more) n = some d) ∧
    (∀ fewer, fewer < d.tSteps → deriveSeed table fewer n = none) ∧ deriveSeed table d.tSteps n = some d

/-! ## Invariants and isolation -/

/-- Every step keeps the invariant: the counters in range, the digits of the running half distinct and marked, the
throwaway increment odd, a valid seed of the shape of 41_seed_derivation R134, at most one command in flight, error
responses without data. -/
def Obligations.EveryStepKeepsTheInvariant : Prop :=
  ∀ s t : State, s.Inv → step s = .next t → t.Inv

/-- The invariant holds after reset. -/
def Obligations.ResetMeetsTheInvariant : Prop := State.reset.Inv

/-- A step of one block of a chip leaves every other one as it was, and is that block's own step
(60_exceptions R184, 20_memory R61). -/
def Obligations.BlocksOfAChipAreIsolated : Prop :=
  ∀ (chip chip' : Chip) (k : Nat), Chip.stepAt k chip = .next chip' →
    chip'.length = chip.length ∧ (∀ l, l ≠ k → chip'[l]? = chip[l]?) ∧
    (∀ s, chip[k]? = some s → ∃ t, step s = .next t ∧ chip'[k]? = some t)

/-! ## Runs -/

/-- A run that is over has one response for every command of its script, the engine is idle, no response is owed and
`ent_req` is 0 (70_reset_and_hazards R207). -/
def Obligations.EndedRunHasAnsweredEveryCommand : Prop :=
  ∀ (table : Table) (s : State) (script : List (Byte × Word)) (answers : List EntropyAnswer) (budget : Nat)
    (e : RunEnd), s.cmdReady = true → (Run.start s script answers).finish table budget = some e →
    e.observation.length = script.length ∧ e.endState.phase = .idle ∧ e.endState.owed = none ∧
      e.endState.entReq = false

/-- A script in which nothing is derived ends, whatever its operands and illegal bytes and whatever errors it meets
(70_reset_and_hazards R207, 60_exceptions R172). That two steps a command suffice is the model's measure, not a latency
(log entry 1). -/
def Obligations.ScriptsWithoutDerivationsEnd : Prop :=
  ∀ (table : Table) (s : State) (script : List (Byte × Word)) (answers : List EntropyAnswer), s.cmdReady = true →
    (∀ c ∈ script, c.1 ≠ 0x40#8 ∧ c.1 ≠ 0x41#8) →
    ∃ e, (Run.start s script answers).finish table (2 * script.length) = some e ∧
      e.observation.length = script.length ∧ e.endState.seed = s.seed ∧ e.endState.nreg = s.nreg

/-- A `DERIVE n`, and an `RSEED` answered `Value(n)`, end exactly if `derive_seed(n)` does: the one response is
`(OK, derive_seed(n))`, `SEED` holds it, and the primary generator is as it was (41_seed_derivation R138, R139, R146,
70_reset_and_hazards R207). That an entropy answer comes at once is the model's choice (log entry 18). -/
def Obligations.DerivationRunsEndWithTheirSeed : Prop :=
  ∀ (table : Table) (s : State) (n : Word) (c : Byte × Word) (answers : List EntropyAnswer), s.cmdReady = true →
    (c = (0x40#8, n) ∨ c.1 = 0x41#8 ∧ answers.head? = some (.value n)) →
    ((∃ budget e, (Run.start s [c] answers).finish table budget = some e) ↔
      ∃ budget d, deriveSeed table budget n = some d) ∧
    ∀ (budget : Nat) (d : Derived) (steps : Nat) (e : RunEnd), deriveSeed table budget n = some d →
      (Run.start s [c] answers).finish table steps = some e →
      e.observation = [⟨.ok, d.seed⟩] ∧ e.endState.seed = d.seed ∧ e.endState.seedv = true ∧
        e.endState.primary = s.primary ∧ e.endState.xv = s.xv ∧ e.endState.wv = s.wv ∧ e.endState.sv = s.sv

/-- An `RSEED` answered `Fail` ends its run, with the response `(ENT, 0)`: `EENT` is set, `SEEDV` is 0, no derivation has
started and every other register but `ESRC` is as it was (60_exceptions R175, 70_reset_and_hazards R207). The budget of
three steps (log entry 1) and the answer at the first edge at which it is asked for (log entry 18) are the model's own
(DESIGN CHOICE). -/
def Obligations.FailedRseedEndsItsRun : Prop :=
  ∀ (table : Table) (s : State) (d : Word) (answers : List EntropyAnswer), s.cmdReady = true →
    answers.head? = some .fail →
    (Run.start s [(0x41#8, d)] answers).finish table 3 = some
      { endState := { s.registers with esrc := true, seedv := false, eent := true }
        observation := [⟨.ent, 0#64⟩] }

/-- A run whose `RSEED` is never answered has no end state, whatever would come after it (70_reset_and_hazards R207,
60_exceptions R180). -/
def Obligations.UnansweredRunHasNoEnd : Prop :=
  ∀ (table : Table) (s : State) (d : Word) (rest : List (Byte × Word)) (answers : List EntropyAnswer), s.cmdReady = true →
    answers.head? = none ∨ answers.head? = some .never →
    ∀ budget, (Run.start s ((0x41#8, d) :: rest) answers).finish table budget = none

/-- A run has one end: whatever the budget it is looked for with, and however many steps follow, the end state and the
observation are the same (70_reset_and_hazards R207 names the end; it does not say what comes after it). The budget, and
the steps that follow, in which there is no reset and no further command, are those of the model's environment of a run
(DESIGN CHOICE, log entry 18). -/
def Obligations.RunHasOneEnd : Prop :=
  (∀ (table : Table) (r : Run) (b b' : Nat) (e e' : RunEnd), r.finish table b = some e → r.finish table b' = some e' →
    e = e') ∧
  (∀ (table : Table) (r : Run), r.state.runOver = true → ∃ r', r.next table = some r' ∧ r'.state.runOver = true ∧
    r'.ending = r.ending)
end

