-- ==== Sys2Proof/Laws/State.lean ====
section
/-! SUPPORT. What each named update of the state writes, field by field. -/

namespace Sys2Proof.Machine

variable (s : State)

/-! `respond` writes what is owed and nothing else. -/

@[simp] theorem State.respond_x (code : RspCode) (data : Word) : (s.respond code data).x = s.x := rfl
@[simp] theorem State.respond_w (code : RspCode) (data : Word) : (s.respond code data).w = s.w := rfl
@[simp] theorem State.respond_s (code : RspCode) (data : Word) : (s.respond code data).s = s.s := rfl
@[simp] theorem State.respond_xv (code : RspCode) (data : Word) : (s.respond code data).xv = s.xv := rfl
@[simp] theorem State.respond_wv (code : RspCode) (data : Word) : (s.respond code data).wv = s.wv := rfl
@[simp] theorem State.respond_sv (code : RspCode) (data : Word) : (s.respond code data).sv = s.sv := rfl
@[simp] theorem State.respond_seed (code : RspCode) (data : Word) : (s.respond code data).seed = s.seed := rfl
@[simp] theorem State.respond_seedv (code : RspCode) (data : Word) : (s.respond code data).seedv = s.seedv := rfl
@[simp] theorem State.respond_eill (code : RspCode) (data : Word) : (s.respond code data).eill = s.eill := rfl
@[simp] theorem State.respond_einv (code : RspCode) (data : Word) : (s.respond code data).einv = s.einv := rfl
@[simp] theorem State.respond_eent (code : RspCode) (data : Word) : (s.respond code data).eent = s.eent := rfl
@[simp] theorem State.respond_tx (code : RspCode) (data : Word) : (s.respond code data).tx = s.tx := rfl
@[simp] theorem State.respond_tw (code : RspCode) (data : Word) : (s.respond code data).tw = s.tw := rfl
@[simp] theorem State.respond_ts (code : RspCode) (data : Word) : (s.respond code data).ts = s.ts := rfl
@[simp] theorem State.respond_nreg (code : RspCode) (data : Word) : (s.respond code data).nreg = s.nreg := rfl
@[simp] theorem State.respond_a (code : RspCode) (data : Word) : (s.respond code data).a = s.a := rfl
@[simp] theorem State.respond_c (code : RspCode) (data : Word) : (s.respond code data).c = s.c := rfl
@[simp] theorem State.respond_m (code : RspCode) (data : Word) : (s.respond code data).m = s.m := rfl
@[simp] theorem State.respond_j (code : RspCode) (data : Word) : (s.respond code data).j = s.j := rfl
@[simp] theorem State.respond_i (code : RspCode) (data : Word) : (s.respond code data).i = s.i := rfl
@[simp] theorem State.respond_half (code : RspCode) (data : Word) : (s.respond code data).half = s.half := rfl
@[simp] theorem State.respond_uh (code : RspCode) (data : Word) : (s.respond code data).uh = s.uh := rfl
@[simp] theorem State.respond_esrc (code : RspCode) (data : Word) : (s.respond code data).esrc = s.esrc := rfl
@[simp] theorem State.respond_phase (code : RspCode) (data : Word) : (s.respond code data).phase = s.phase := rfl
@[simp] theorem State.respond_owed (code : RspCode) (data : Word) : (s.respond code data).owed = some ⟨code, data⟩ := rfl
@[simp] theorem State.respond_rsp (code : RspCode) (data : Word) : (s.respond code data).rsp = s.rsp := rfl
@[simp] theorem State.respond_host (code : RspCode) (data : Word) : (s.respond code data).host = s.host := rfl
@[simp] theorem State.respond_pins (code : RspCode) (data : Word) : (s.respond code data).pins = s.pins := rfl
@[simp] theorem State.respond_pinsNext (code : RspCode) (data : Word) : (s.respond code data).pinsNext = s.pinsNext := rfl
@[simp] theorem State.respond_responses (code : RspCode) (data : Word) : (s.respond code data).responses = s.responses := rfl

/-! `raise` writes a sticky flag, `PHASE` and what is owed (60_exceptions R172). -/

@[simp] theorem State.raise_x (e : Err) : (s.raise e).x = s.x := rfl
@[simp] theorem State.raise_w (e : Err) : (s.raise e).w = s.w := rfl
@[simp] theorem State.raise_s (e : Err) : (s.raise e).s = s.s := rfl
@[simp] theorem State.raise_xv (e : Err) : (s.raise e).xv = s.xv := rfl
@[simp] theorem State.raise_wv (e : Err) : (s.raise e).wv = s.wv := rfl
@[simp] theorem State.raise_sv (e : Err) : (s.raise e).sv = s.sv := rfl
@[simp] theorem State.raise_seed (e : Err) : (s.raise e).seed = s.seed := rfl
@[simp] theorem State.raise_seedv (e : Err) : (s.raise e).seedv = s.seedv := rfl
@[simp] theorem State.raise_eill (e : Err) : (s.raise e).eill = (s.eill || e == .ill) := rfl
@[simp] theorem State.raise_einv (e : Err) : (s.raise e).einv = (s.einv || e == .inv) := rfl
@[simp] theorem State.raise_eent (e : Err) : (s.raise e).eent = (s.eent || e == .ent) := rfl
@[simp] theorem State.raise_tx (e : Err) : (s.raise e).tx = s.tx := rfl
@[simp] theorem State.raise_tw (e : Err) : (s.raise e).tw = s.tw := rfl
@[simp] theorem State.raise_ts (e : Err) : (s.raise e).ts = s.ts := rfl
@[simp] theorem State.raise_nreg (e : Err) : (s.raise e).nreg = s.nreg := rfl
@[simp] theorem State.raise_a (e : Err) : (s.raise e).a = s.a := rfl
@[simp] theorem State.raise_c (e : Err) : (s.raise e).c = s.c := rfl
@[simp] theorem State.raise_m (e : Err) : (s.raise e).m = s.m := rfl
@[simp] theorem State.raise_j (e : Err) : (s.raise e).j = s.j := rfl
@[simp] theorem State.raise_i (e : Err) : (s.raise e).i = s.i := rfl
@[simp] theorem State.raise_half (e : Err) : (s.raise e).half = s.half := rfl
@[simp] theorem State.raise_uh (e : Err) : (s.raise e).uh = s.uh := rfl
@[simp] theorem State.raise_esrc (e : Err) : (s.raise e).esrc = s.esrc := rfl
@[simp] theorem State.raise_phase (e : Err) : (s.raise e).phase = .idle := rfl
@[simp] theorem State.raise_owed (e : Err) : (s.raise e).owed = some ⟨e.code, 0#64⟩ := rfl
@[simp] theorem State.raise_rsp (e : Err) : (s.raise e).rsp = s.rsp := rfl
@[simp] theorem State.raise_host (e : Err) : (s.raise e).host = s.host := rfl
@[simp] theorem State.raise_pins (e : Err) : (s.raise e).pins = s.pins := rfl
@[simp] theorem State.raise_pinsNext (e : Err) : (s.raise e).pinsNext = s.pinsNext := rfl
@[simp] theorem State.raise_responses (e : Err) : (s.raise e).responses = s.responses := rfl

/-! `construct` writes the primary generator and its valid bits (40_core_generator R103). -/

@[simp] theorem State.construct_x (v : Word) : (s.construct v).x = v := rfl
@[simp] theorem State.construct_w (v : Word) : (s.construct v).w = v := rfl
@[simp] theorem State.construct_s (v : Word) : (s.construct v).s = v := rfl
@[simp] theorem State.construct_xv (v : Word) : (s.construct v).xv = true := rfl
@[simp] theorem State.construct_wv (v : Word) : (s.construct v).wv = true := rfl
@[simp] theorem State.construct_sv (v : Word) : (s.construct v).sv = true := rfl
@[simp] theorem State.construct_seed (v : Word) : (s.construct v).seed = s.seed := rfl
@[simp] theorem State.construct_seedv (v : Word) : (s.construct v).seedv = s.seedv := rfl
@[simp] theorem State.construct_eill (v : Word) : (s.construct v).eill = s.eill := rfl
@[simp] theorem State.construct_einv (v : Word) : (s.construct v).einv = s.einv := rfl
@[simp] theorem State.construct_eent (v : Word) : (s.construct v).eent = s.eent := rfl
@[simp] theorem State.construct_tx (v : Word) : (s.construct v).tx = s.tx := rfl
@[simp] theorem State.construct_tw (v : Word) : (s.construct v).tw = s.tw := rfl
@[simp] theorem State.construct_ts (v : Word) : (s.construct v).ts = s.ts := rfl
@[simp] theorem State.construct_nreg (v : Word) : (s.construct v).nreg = s.nreg := rfl
@[simp] theorem State.construct_a (v : Word) : (s.construct v).a = s.a := rfl
@[simp] theorem State.construct_c (v : Word) : (s.construct v).c = s.c := rfl
@[simp] theorem State.construct_m (v : Word) : (s.construct v).m = s.m := rfl
@[simp] theorem State.construct_j (v : Word) : (s.construct v).j = s.j := rfl
@[simp] theorem State.construct_i (v : Word) : (s.construct v).i = s.i := rfl
@[simp] theorem State.construct_half (v : Word) : (s.construct v).half = s.half := rfl
@[simp] theorem State.construct_uh (v : Word) : (s.construct v).uh = s.uh := rfl
@[simp] theorem State.construct_esrc (v : Word) : (s.construct v).esrc = s.esrc := rfl
@[simp] theorem State.construct_phase (v : Word) : (s.construct v).phase = s.phase := rfl
@[simp] theorem State.construct_owed (v : Word) : (s.construct v).owed = s.owed := rfl
@[simp] theorem State.construct_rsp (v : Word) : (s.construct v).rsp = s.rsp := rfl
@[simp] theorem State.construct_host (v : Word) : (s.construct v).host = s.host := rfl
@[simp] theorem State.construct_pins (v : Word) : (s.construct v).pins = s.pins := rfl
@[simp] theorem State.construct_pinsNext (v : Word) : (s.construct v).pinsNext = s.pinsNext := rfl
@[simp] theorem State.construct_responses (v : Word) : (s.construct v).responses = s.responses := rfl

/-! `clearErrors` writes the sticky flags (42_system R165). -/

@[simp] theorem State.clearErrors_x : (s.clearErrors).x = s.x := rfl
@[simp] theorem State.clearErrors_w : (s.clearErrors).w = s.w := rfl
@[simp] theorem State.clearErrors_s : (s.clearErrors).s = s.s := rfl
@[simp] theorem State.clearErrors_xv : (s.clearErrors).xv = s.xv := rfl
@[simp] theorem State.clearErrors_wv : (s.clearErrors).wv = s.wv := rfl
@[simp] theorem State.clearErrors_sv : (s.clearErrors).sv = s.sv := rfl
@[simp] theorem State.clearErrors_seed : (s.clearErrors).seed = s.seed := rfl
@[simp] theorem State.clearErrors_seedv : (s.clearErrors).seedv = s.seedv := rfl
@[simp] theorem State.clearErrors_eill : (s.clearErrors).eill = false := rfl
@[simp] theorem State.clearErrors_einv : (s.clearErrors).einv = false := rfl
@[simp] theorem State.clearErrors_eent : (s.clearErrors).eent = false := rfl
@[simp] theorem State.clearErrors_tx : (s.clearErrors).tx = s.tx := rfl
@[simp] theorem State.clearErrors_tw : (s.clearErrors).tw = s.tw := rfl
@[simp] theorem State.clearErrors_ts : (s.clearErrors).ts = s.ts := rfl
@[simp] theorem State.clearErrors_nreg : (s.clearErrors).nreg = s.nreg := rfl
@[simp] theorem State.clearErrors_a : (s.clearErrors).a = s.a := rfl
@[simp] theorem State.clearErrors_c : (s.clearErrors).c = s.c := rfl
@[simp] theorem State.clearErrors_m : (s.clearErrors).m = s.m := rfl
@[simp] theorem State.clearErrors_j : (s.clearErrors).j = s.j := rfl
@[simp] theorem State.clearErrors_i : (s.clearErrors).i = s.i := rfl
@[simp] theorem State.clearErrors_half : (s.clearErrors).half = s.half := rfl
@[simp] theorem State.clearErrors_uh : (s.clearErrors).uh = s.uh := rfl
@[simp] theorem State.clearErrors_esrc : (s.clearErrors).esrc = s.esrc := rfl
@[simp] theorem State.clearErrors_phase : (s.clearErrors).phase = s.phase := rfl
@[simp] theorem State.clearErrors_owed : (s.clearErrors).owed = s.owed := rfl
@[simp] theorem State.clearErrors_rsp : (s.clearErrors).rsp = s.rsp := rfl
@[simp] theorem State.clearErrors_host : (s.clearErrors).host = s.host := rfl
@[simp] theorem State.clearErrors_pins : (s.clearErrors).pins = s.pins := rfl
@[simp] theorem State.clearErrors_pinsNext : (s.clearErrors).pinsNext = s.pinsNext := rfl
@[simp] theorem State.clearErrors_responses : (s.clearErrors).responses = s.responses := rfl

/-! `tick` writes no register: the pulse ends and the outside world moves (10_state R32). -/

@[simp] theorem State.tick_x : (s.tick).x = s.x := rfl
@[simp] theorem State.tick_w : (s.tick).w = s.w := rfl
@[simp] theorem State.tick_s : (s.tick).s = s.s := rfl
@[simp] theorem State.tick_xv : (s.tick).xv = s.xv := rfl
@[simp] theorem State.tick_wv : (s.tick).wv = s.wv := rfl
@[simp] theorem State.tick_sv : (s.tick).sv = s.sv := rfl
@[simp] theorem State.tick_seed : (s.tick).seed = s.seed := rfl
@[simp] theorem State.tick_seedv : (s.tick).seedv = s.seedv := rfl
@[simp] theorem State.tick_eill : (s.tick).eill = s.eill := rfl
@[simp] theorem State.tick_einv : (s.tick).einv = s.einv := rfl
@[simp] theorem State.tick_eent : (s.tick).eent = s.eent := rfl
@[simp] theorem State.tick_tx : (s.tick).tx = s.tx := rfl
@[simp] theorem State.tick_tw : (s.tick).tw = s.tw := rfl
@[simp] theorem State.tick_ts : (s.tick).ts = s.ts := rfl
@[simp] theorem State.tick_nreg : (s.tick).nreg = s.nreg := rfl
@[simp] theorem State.tick_a : (s.tick).a = s.a := rfl
@[simp] theorem State.tick_c : (s.tick).c = s.c := rfl
@[simp] theorem State.tick_m : (s.tick).m = s.m := rfl
@[simp] theorem State.tick_j : (s.tick).j = s.j := rfl
@[simp] theorem State.tick_i : (s.tick).i = s.i := rfl
@[simp] theorem State.tick_half : (s.tick).half = s.half := rfl
@[simp] theorem State.tick_uh : (s.tick).uh = s.uh := rfl
@[simp] theorem State.tick_esrc : (s.tick).esrc = s.esrc := rfl
@[simp] theorem State.tick_phase : (s.tick).phase = s.phase := rfl
@[simp] theorem State.tick_owed : (s.tick).owed = s.owed := rfl
@[simp] theorem State.tick_rsp : (s.tick).rsp = none := rfl
@[simp] theorem State.tick_host : (s.tick).host = s.hostAfter := rfl
@[simp] theorem State.tick_pins : (s.tick).pins = s.pinsNext.headD s.pins := rfl
@[simp] theorem State.tick_pinsNext : (s.tick).pinsNext = s.pinsNext.tail := rfl
@[simp] theorem State.tick_responses : (s.tick).responses = s.responses := rfl

/-! `deliver` moves the owed response to the response port (10_state R32). -/

@[simp] theorem State.deliver_x (r : Response) : (s.deliver r).x = s.x := rfl
@[simp] theorem State.deliver_w (r : Response) : (s.deliver r).w = s.w := rfl
@[simp] theorem State.deliver_s (r : Response) : (s.deliver r).s = s.s := rfl
@[simp] theorem State.deliver_xv (r : Response) : (s.deliver r).xv = s.xv := rfl
@[simp] theorem State.deliver_wv (r : Response) : (s.deliver r).wv = s.wv := rfl
@[simp] theorem State.deliver_sv (r : Response) : (s.deliver r).sv = s.sv := rfl
@[simp] theorem State.deliver_seed (r : Response) : (s.deliver r).seed = s.seed := rfl
@[simp] theorem State.deliver_seedv (r : Response) : (s.deliver r).seedv = s.seedv := rfl
@[simp] theorem State.deliver_eill (r : Response) : (s.deliver r).eill = s.eill := rfl
@[simp] theorem State.deliver_einv (r : Response) : (s.deliver r).einv = s.einv := rfl
@[simp] theorem State.deliver_eent (r : Response) : (s.deliver r).eent = s.eent := rfl
@[simp] theorem State.deliver_tx (r : Response) : (s.deliver r).tx = s.tx := rfl
@[simp] theorem State.deliver_tw (r : Response) : (s.deliver r).tw = s.tw := rfl
@[simp] theorem State.deliver_ts (r : Response) : (s.deliver r).ts = s.ts := rfl
@[simp] theorem State.deliver_nreg (r : Response) : (s.deliver r).nreg = s.nreg := rfl
@[simp] theorem State.deliver_a (r : Response) : (s.deliver r).a = s.a := rfl
@[simp] theorem State.deliver_c (r : Response) : (s.deliver r).c = s.c := rfl
@[simp] theorem State.deliver_m (r : Response) : (s.deliver r).m = s.m := rfl
@[simp] theorem State.deliver_j (r : Response) : (s.deliver r).j = s.j := rfl
@[simp] theorem State.deliver_i (r : Response) : (s.deliver r).i = s.i := rfl
@[simp] theorem State.deliver_half (r : Response) : (s.deliver r).half = s.half := rfl
@[simp] theorem State.deliver_uh (r : Response) : (s.deliver r).uh = s.uh := rfl
@[simp] theorem State.deliver_esrc (r : Response) : (s.deliver r).esrc = s.esrc := rfl
@[simp] theorem State.deliver_phase (r : Response) : (s.deliver r).phase = s.phase := rfl
@[simp] theorem State.deliver_owed (r : Response) : (s.deliver r).owed = none := rfl
@[simp] theorem State.deliver_rsp (r : Response) : (s.deliver r).rsp = some r := rfl
@[simp] theorem State.deliver_host (r : Response) : (s.deliver r).host = s.host := rfl
@[simp] theorem State.deliver_pins (r : Response) : (s.deliver r).pins = s.pins := rfl
@[simp] theorem State.deliver_pinsNext (r : Response) : (s.deliver r).pinsNext = s.pinsNext := rfl
@[simp] theorem State.deliver_responses (r : Response) : (s.deliver r).responses = s.responses ++ [r] := rfl

/-! `resetRegisters` gives every register its reset value (10_state R36). -/

@[simp] theorem State.resetRegisters_x : (s.resetRegisters).x = 0#64 := rfl
@[simp] theorem State.resetRegisters_w : (s.resetRegisters).w = 0#64 := rfl
@[simp] theorem State.resetRegisters_s : (s.resetRegisters).s = 0#64 := rfl
@[simp] theorem State.resetRegisters_xv : (s.resetRegisters).xv = false := rfl
@[simp] theorem State.resetRegisters_wv : (s.resetRegisters).wv = false := rfl
@[simp] theorem State.resetRegisters_sv : (s.resetRegisters).sv = false := rfl
@[simp] theorem State.resetRegisters_seed : (s.resetRegisters).seed = 0#64 := rfl
@[simp] theorem State.resetRegisters_seedv : (s.resetRegisters).seedv = false := rfl
@[simp] theorem State.resetRegisters_eill : (s.resetRegisters).eill = false := rfl
@[simp] theorem State.resetRegisters_einv : (s.resetRegisters).einv = false := rfl
@[simp] theorem State.resetRegisters_eent : (s.resetRegisters).eent = false := rfl
@[simp] theorem State.resetRegisters_tx : (s.resetRegisters).tx = 0#64 := rfl
@[simp] theorem State.resetRegisters_tw : (s.resetRegisters).tw = 0#64 := rfl
@[simp] theorem State.resetRegisters_ts : (s.resetRegisters).ts = 0#64 := rfl
@[simp] theorem State.resetRegisters_nreg : (s.resetRegisters).nreg = 0#64 := rfl
@[simp] theorem State.resetRegisters_a : (s.resetRegisters).a = 0#32 := rfl
@[simp] theorem State.resetRegisters_c : (s.resetRegisters).c = 0#16 := rfl
@[simp] theorem State.resetRegisters_m : (s.resetRegisters).m = 0#6 := rfl
@[simp] theorem State.resetRegisters_j : (s.resetRegisters).j = 0#32 := rfl
@[simp] theorem State.resetRegisters_i : (s.resetRegisters).i = 0#5 := rfl
@[simp] theorem State.resetRegisters_half : (s.resetRegisters).half = false := rfl
@[simp] theorem State.resetRegisters_uh : (s.resetRegisters).uh = 0#32 := rfl
@[simp] theorem State.resetRegisters_esrc : (s.resetRegisters).esrc = false := rfl
@[simp] theorem State.resetRegisters_phase : (s.resetRegisters).phase = .idle := rfl
@[simp] theorem State.resetRegisters_owed : (s.resetRegisters).owed = none := rfl
@[simp] theorem State.resetRegisters_rsp : (s.resetRegisters).rsp = none := rfl
@[simp] theorem State.resetRegisters_host : (s.resetRegisters).host = s.host := rfl
@[simp] theorem State.resetRegisters_pins : (s.resetRegisters).pins = s.pins := rfl
@[simp] theorem State.resetRegisters_pinsNext : (s.resetRegisters).pinsNext = s.pinsNext := rfl
@[simp] theorem State.resetRegisters_responses : (s.resetRegisters).responses = s.responses := rfl

end Sys2Proof.Machine
end

