-- ==== Sys2Proof/Laws/Ops.lean ====
section
/-! SUPPORT. What each shared operation does, said once: the bit primitives, the digit accumulator, the register read,
the table. -/

namespace Sys2Proof.Machine

/-! Bit primitives -/

theorem lowHalf_toNat (v : Word) : (lowHalf v).toNat = v.toNat % 2 ^ 32 := by
  simp [lowHalf, BitVec.extractLsb'_toNat]

theorem highHalf_toNat (v : Word) : (highHalf v).toNat = v.toNat / 2 ^ 32 := by
  have := v.isLt
  simp only [highHalf, BitVec.extractLsb'_toNat, Nat.shiftRight_eq_div_pow]
  omega

theorem getLsbD_lowHalf (v : Word) (b : Nat) : (lowHalf v).getLsbD b = (decide (b < 32) && v.getLsbD b) := by
  simp [lowHalf, BitVec.getLsbD_extractLsb']

theorem getLsbD_highHalf (v : Word) (b : Nat) : (highHalf v).getLsbD b = (decide (b < 32) && v.getLsbD (32 + b)) := by
  simp [highHalf, BitVec.getLsbD_extractLsb']

theorem getLsbD_rot32 (v : Word) (b : Nat) :
    (rot32 v).getLsbD b = if b < 32 then v.getLsbD (32 + b) else (decide (b < 64) && v.getLsbD (b - 32)) := by
  unfold rot32
  rw [BitVec.getLsbD_append]
  by_cases h : b < 32
  · simp [h]
  · by_cases h' : b < 64
    · simp [h, h']
      omega
    · simp [h, h']
      omega

/-- The low half of an exchanged word is the high half of the word (40_core_generator R95). -/
theorem lowHalf_rot32 (v : Word) : lowHalf (rot32 v) = highHalf v := by
  ext b hb
  simp [← BitVec.getLsbD_eq_getElem, getLsbD_lowHalf, getLsbD_highHalf, getLsbD_rot32, hb]

theorem highHalf_rot32 (v : Word) : highHalf (rot32 v) = lowHalf v := by
  ext b hb
  simp [← BitVec.getLsbD_eq_getElem, getLsbD_lowHalf, getLsbD_highHalf, getLsbD_rot32, hb]
  omega

/-- Exchanging the halves twice gives the word back: no bit is lost (40_core_generator R94). -/
theorem rot32_rot32 (v : Word) : rot32 (rot32 v) = v := by
  ext b hb
  simp only [← BitVec.getLsbD_eq_getElem, getLsbD_rot32]
  by_cases h : b < 32
  · have h0 : 32 + b < 64 := by omega
    simp [h, h0]
  · have h1 : b - 32 < 32 := by omega
    have h2 : 32 + (b - 32) = b := by omega
    simp [h, h1, h2, hb]

theorem word_toNat_halves (v : Word) : v.toNat = (highHalf v).toNat * 2 ^ 32 + (lowHalf v).toNat := by
  rw [highHalf_toNat, lowHalf_toNat]
  omega

/-- `rot32` in natural numbers. -/
theorem rot32_toNat (v : Word) : (rot32 v).toNat = v.toNat % 2 ^ 32 * 2 ^ 32 + v.toNat / 2 ^ 32 := by
  rw [word_toNat_halves (rot32 v), highHalf_rot32, lowHalf_rot32, lowHalf_toNat, highHalf_toNat]

@[simp] theorem zext64_toNat (v : Word32) : (zext64 v).toNat = v.toNat := by
  have := v.isLt
  simp only [zext64, BitVec.toNat_setWidth]
  omega

theorem getLsbD_nibbleAt (v : Word32) (p b : Nat) :
    (nibbleAt v p).getLsbD b = (decide (b < 4) && v.getLsbD (p + b)) := by
  simp [nibbleAt, BitVec.getLsbD_extractLsb']

theorem getLsbD_fifteen (b : Nat) : (0xF#32).getLsbD b = decide (b < 4) := by
  by_cases h : b < 32
  · have : ∀ n : Fin 32, (0xF#32).getLsbD n.val = decide (n.val < 4) := by decide
    exact this ⟨b, h⟩
  · rw [BitVec.getLsbD_of_ge _ _ (by omega)]
    simp
    omega

/-- `setNibble` bit by bit: slot `p` holds `k`, every other bit is kept. -/
theorem getLsbD_setNibble (v : Word32) (p b : Nat) (k : Nibble) (hb : b < 32) :
    (setNibble v p k).getLsbD b = if p ≤ b ∧ b < p + 4 then k.getLsbD (b - p) else v.getLsbD b := by
  simp only [setNibble, BitVec.getLsbD_or, BitVec.getLsbD_and, BitVec.getLsbD_not, BitVec.getLsbD_shiftLeft,
    BitVec.getLsbD_setWidth, getLsbD_fifteen, hb]
  by_cases h1 : p ≤ b
  · by_cases h2 : b < p + 4
    · have h3 : ¬ b < p := by omega
      have h4 : b - p < 4 := by omega
      have h5 : b - p < 32 := by omega
      simp [h1, h2, h3, h4, h5]
    · have h3 : ¬ b < p := by omega
      have h4 : ¬ b - p < 4 := by omega
      have h6 : k.getLsbD (b - p) = false := BitVec.getLsbD_of_ge _ _ (by omega)
      simp [h1, h2, h3, h4, h6]
  · have h3 : b < p := by omega
    simp [h1, h3]

theorem nibbleAt_setNibble_self (v : Word32) (p : Nat) (k : Nibble) (hp : p ≤ 28) :
    nibbleAt (setNibble v p k) p = k := by
  ext b hb
  rw [← BitVec.getLsbD_eq_getElem, ← BitVec.getLsbD_eq_getElem, getLsbD_nibbleAt, getLsbD_setNibble _ _ _ _ (by omega)]
  have h : p + b < p + 4 := by omega
  simp [hb, h]

theorem nibbleAt_setNibble_below (v : Word32) (p q : Nat) (k : Nibble) (hp : p ≤ 28) (hq : q + 4 ≤ p) :
    nibbleAt (setNibble v p k) q = nibbleAt v q := by
  ext b hb
  rw [← BitVec.getLsbD_eq_getElem, ← BitVec.getLsbD_eq_getElem, getLsbD_nibbleAt, getLsbD_nibbleAt,
    getLsbD_setNibble _ _ _ _ (by omega)]
  have h : ¬ p ≤ q + b := by omega
  simp [hb, h]

/-! The step function -/

/-- The output of a step is the upper half of the sum before the exchange (40_core_generator R95). -/
theorem mswsOut_eq (g : Gen) : mswsOut g = highHalf (mswsSum g) := lowHalf_rot32 _

theorem mswsSum_toNat (g : Gen) :
    (mswsSum g).toNat = (g.x.toNat * g.x.toNat + (g.w.toNat + g.s.toNat) % 2 ^ 64) % 2 ^ 64 := by
  simp [mswsSum, BitVec.toNat_add, BitVec.toNat_mul]

@[simp] theorem mswsNext_s (g : Gen) : (mswsNext g).s = g.s := rfl

@[simp] theorem mswsNext_w (g : Gen) : (mswsNext g).w = g.w + g.s := rfl

/-! The table -/

/-- Every entry of `SCONST` is odd (00_scope R6): all a proof can know of one. -/
theorem sconst_odd (i : TableIndex) : (Config.sconst i).getLsbD 0 = true := by
  rw [Config.sconst, BitVec.getLsbD_append]
  rfl

/-! The arithmetic of a derivation, in natural numbers -/

theorem decimalBase_toNat : decimalBase.toNat = 100000000 := rfl

theorem tableLength_toNat : tableLength.toNat = 30 := rfl

/-- `normalise` in natural numbers (41_seed_derivation R121). -/
theorem normalise_toNat (n : Word) :
    (normalise n).toNat = if n.toNat < 2 ^ 63 then n.toNat else 2 ^ 64 - n.toNat := by
  have hn := n.isLt
  have hm : n.getLsbD 63 = decide (2 ^ 63 ≤ n.toNat) := by
    simp only [BitVec.getLsbD, Nat.testBit_eq_decide_div_mod_eq, decide_eq_decide]
    omega
  rw [normalise, hm]
  by_cases h : n.toNat < 2 ^ 63
  · have h' : ¬ 2 ^ 63 ≤ n.toNat := by omega
    simp only [h', decide_false, if_pos h, Bool.false_eq_true, if_false]
  · have h' : 2 ^ 63 ≤ n.toNat := by omega
    simp only [h', decide_true, if_true, if_neg h, BitVec.toNat_neg]
    omega

/-- An index and its negation have one normal form (41_seed_derivation R121). -/
theorem normalise_neg (n : Word) : normalise (-n) = normalise n := by
  apply BitVec.eq_of_toNat_eq
  have := n.isLt
  rw [normalise_toNat, normalise_toNat, BitVec.toNat_neg]
  split <;> split <;> omega

theorem indexQuotient_toNat (n : Word) : (indexQuotient n).toNat = (normalise n).toNat / 100000000 := by
  rw [indexQuotient, BitVec.toNat_udiv, decimalBase_toNat]

theorem indexRemainder_toNat (n : Word) : (indexRemainder n).toNat = (normalise n).toNat % 100000000 := by
  rw [indexRemainder, BitVec.toNat_umod, decimalBase_toNat]

theorem reducedQuotient_toNat (n : Word) : (reducedQuotient n).toNat = (normalise n).toNat / 100000000 / 30 := by
  rw [reducedQuotient, BitVec.toNat_udiv, indexQuotient_toNat, tableLength_toNat]

theorem tableIndex_val (n : Word) : (tableIndex n).val = (normalise n).toNat / 100000000 % 30 := by
  simp only [tableIndex, BitVec.toNat_umod, indexQuotient_toNat, tableLength_toNat]

/-- A sum of products modulo 2^64, with one reduction at the end. -/
theorem toNat_mul_add_mul_mul (x t y z : Word) :
    (x * t + z * (y * t)).toNat = (x.toNat * t.toNat + z.toNat * (y.toNat * t.toNat)) % 2 ^ 64 := by
  simp only [BitVec.toNat_add, BitVec.toNat_mul]
  simp [Nat.add_mod, Nat.mul_mod]

/-! The digit accumulator -/

theorem SlotInRange.cases {m : BitVec 6} (h : SlotInRange m) : m = 28#6 ∨ m.toNat ≤ 24 := by
  obtain ⟨h1, h2⟩ := h
  by_cases hm : m.toNat ≤ 24
  · exact .inr hm
  · left
    apply BitVec.eq_of_toNat_eq
    have : (28#6).toNat = 28 := rfl
    omega

theorem Acc.offer_of_used {acc : Acc} {k : Nibble} (h : acc.used k = true) : acc.offer k = acc := by
  simp [Acc.offer, h]

theorem Acc.offer_of_fresh {acc : Acc} {k : Nibble} (h : acc.used k = false) :
    acc.offer k = { a := setNibble acc.a acc.m.toNat k, c := acc.c ||| (1#16 <<< k.toNat), m := acc.m + 4#6 } := by
  simp [Acc.offer, h]

/-- The mask after marking `k`, bit by bit. -/
theorem getLsbD_mark (c : BitVec 16) (k : Nibble) (b : Nat) (hb : b < 16) :
    (c ||| (1#16 <<< k.toNat)).getLsbD b = (c.getLsbD b || b == k.toNat) := by
  rw [BitVec.getLsbD_or, BitVec.getLsbD_shiftLeft]
  congr 1
  rcases Nat.lt_trichotomy b k.toNat with h | h | h
  · simp [h, hb]
    omega
  · simp [h]
    omega
  · have h1 : ¬ b < k.toNat := by omega
    have h2 : b - k.toNat ≠ 0 := by omega
    have h3 : b ≠ k.toNat := by omega
    simp [h1, h2, h3]

/-- A slot counter in range advances by four without wrapping. -/
theorem slot_advance {m : BitVec 6} (h : m.toNat ≤ 28) : (m + 4#6).toNat = m.toNat + 4 := by
  rw [BitVec.toNat_add]
  have : (4#6).toNat = 4 := rfl
  omega

/-- In range, an accumulator is full after a fresh digit exactly when that digit went to the last slot. -/
theorem Acc.full_offer_of_fresh {acc : Acc} {k : Nibble} (h : acc.used k = false) (hm : SlotInRange acc.m) :
    (acc.offer k).full = true ↔ acc.m = 28#6 := by
  rw [Acc.offer_of_fresh h]
  simp only [Acc.full, beq_iff_eq]
  constructor
  · intro h'
    have := congrArg BitVec.toNat h'
    rw [slot_advance hm.2] at this
    have h32 : (32#6).toNat = 32 := rfl
    apply BitVec.eq_of_toNat_eq
    have h28 : (28#6).toNat = 28 := rfl
    omega
  · intro h'
    simp [h']

theorem Acc.not_full_of_slot {acc : Acc} (hm : SlotInRange acc.m) : acc.full = false := by
  simp only [Acc.full, beq_eq_false_iff_ne]
  intro h
  have := hm.2
  rw [h] at this
  exact absurd this (by decide)

/-- What offering a digit does to an accumulator between micro-steps: it stays one, or it is complete with eight distinct
digits (41_seed_derivation R126 to R130). -/
theorem Acc.offer_inv {acc : Acc} (h : acc.Inv) (k : Nibble) :
    ((acc.offer k).full = false ∧ (acc.offer k).Inv) ∨ ((acc.offer k).full = true ∧ DistinctDigits (acc.offer k).a) := by
  obtain ⟨hs, hmk, hd⟩ := h
  cases hu : acc.used k with
  | true => rw [Acc.offer_of_used hu]; exact .inl ⟨Acc.not_full_of_slot hs, hs, hmk, hd⟩
  | false =>
    have hf := Acc.full_offer_of_fresh hu hs
    rw [Acc.offer_of_fresh hu] at *
    have hm : acc.m.toNat ≤ 28 := hs.2
    have hm4 := hs.1
    have hadv := slot_advance hm
    have hfresh : ∀ p : Fin 8, 4 * p.val < acc.m.toNat → nibbleAt acc.a (4*p.val) ≠ k := by
      intro p hp he
      have := (hmk k).2 ⟨p, hp, he⟩
      rw [hu] at this; cases this
    have hself := nibbleAt_setNibble_self acc.a acc.m.toNat k hm
    have hbelow : ∀ p : Fin 8, 4 * p.val < acc.m.toNat → nibbleAt (setNibble acc.a acc.m.toNat k) (4*p.val) = nibbleAt acc.a (4*p.val) := by
      intro p hp
      exact nibbleAt_setNibble_below _ _ _ _ hm (by omega)
    have hdist : ∀ p q : Fin 8, 4 * p.val < acc.m.toNat + 4 → 4 * q.val < acc.m.toNat + 4 → p ≠ q →
        nibbleAt (setNibble acc.a acc.m.toNat k) (4*p.val) ≠ nibbleAt (setNibble acc.a acc.m.toNat k) (4*q.val) := by
      intro p q hp hq hne
      by_cases h1 : 4 * p.val < acc.m.toNat
      · by_cases h2 : 4 * q.val < acc.m.toNat
        · rw [hbelow p h1, hbelow q h2]; exact hd p q h1 h2 hne
        · have : 4 * q.val = acc.m.toNat := by omega
          rw [this, hself, hbelow p h1]; exact hfresh p h1
      · have e1 : 4 * p.val = acc.m.toNat := by omega
        by_cases h2 : 4 * q.val < acc.m.toNat
        · rw [e1, hself, hbelow q h2]; exact (hfresh q h2).symm
        · exact absurd (Fin.ext (by omega)) hne
    by_cases h28 : acc.m = 28#6
    · right
      refine ⟨hf.2 h28, ?_⟩
      intro p q hne
      have : acc.m.toNat = 28 := by rw [h28]; rfl
      exact hdist p q (by omega) (by omega) hne
    · left
      have hff : ∀ b : Bool, (b = true ↔ acc.m = 28#6) → b = false := by intro b hb; cases b <;> simp_all
      refine ⟨hff _ hf, ?_, ?_, ?_⟩
      · have : acc.m.toNat ≠ 28 := fun h => h28 (BitVec.eq_of_toNat_eq h)
        constructor <;> simp only [hadv] <;> omega
      · intro x
        simp only [Acc.used] at hmk ⊢
        rw [getLsbD_mark _ _ _ x.isLt, Bool.or_eq_true, hmk x]
        simp only [hadv, beq_iff_eq]
        constructor
        · rintro (⟨p, hp, hpe⟩ | h)
          · exact ⟨p, by omega, by rw [hbelow p hp, hpe]⟩
          · have hx : x = k := BitVec.eq_of_toNat_eq h
            refine ⟨⟨acc.m.toNat / 4, by omega⟩, by simp only; omega, ?_⟩
            have : 4 * (acc.m.toNat / 4) = acc.m.toNat := by omega
            simp only [this, hself, hx]
        · rintro ⟨p, hp, hpe⟩
          by_cases h1 : 4 * p.val < acc.m.toNat
          · exact .inl ⟨p, h1, by rw [← hbelow p h1, hpe]⟩
          · right
            have e1 : 4 * p.val = acc.m.toNat := by omega
            rw [e1, hself] at hpe
            rw [hpe]
      · intro p q hp hq
        rw [hadv] at hp hq
        exact hdist p q hp hq

/-! Combining the halves of a seed -/

/-- `combineHalves` bit by bit (41_seed_derivation R132, R133). -/
theorem getLsbD_combineHalves (up lo : Word32) (b : Nat) (hb : b < 64) :
    (combineHalves up lo).getLsbD b = (b == 0 || if b < 32 then lo.getLsbD b else up.getLsbD (b - 32)) := by
  simp only [combineHalves, BitVec.getLsbD_or, BitVec.getLsbD_append]
  by_cases h : b = 0
  · subst h
    simp
  · by_cases h2 : b < 32 <;> simp [h, h2]

theorem highHalf_combineHalves (up lo : Word32) : highHalf (combineHalves up lo) = up := by
  ext b hb
  rw [← BitVec.getLsbD_eq_getElem, ← BitVec.getLsbD_eq_getElem, getLsbD_highHalf,
    getLsbD_combineHalves _ _ _ (by omega)]
  simp [hb]

theorem lowHalf_combineHalves (up lo : Word32) : lowHalf (combineHalves up lo) = lo ||| 1#32 := by
  ext b hb
  rw [← BitVec.getLsbD_eq_getElem, ← BitVec.getLsbD_eq_getElem, getLsbD_lowHalf,
    getLsbD_combineHalves _ _ _ (by omega)]
  by_cases h : b = 0
  · subst h
    simp
  · simp [hb, h]

/-- Forcing bit 0 changes no digit but digit 0. -/
theorem nibbleAt_or_one (lo : Word32) (p : Fin 8) (hp : p ≠ 0) :
    nibbleAt (lo ||| 1#32) (4 * p.val) = nibbleAt lo (4 * p.val) := by
  ext b hb
  rw [← BitVec.getLsbD_eq_getElem, ← BitVec.getLsbD_eq_getElem, getLsbD_nibbleAt, getLsbD_nibbleAt]
  simp only [BitVec.getLsbD_or, BitVec.getLsbD_one]
  simp [hp]

/-! Reading a register -/

/-- A register read answers `(OK, value)`, or raises `INV` where the valid bit is 0 (60_exceptions R174). -/
theorem State.readRegister_cases (valid : Bool) (value : Word) (s : State) :
    (valid = true ∧ s.readRegister valid value = s.respond .ok value) ∨
    (valid = false ∧ s.readRegister valid value = s.raise .inv) := by
  cases valid <;> simp [State.readRegister]

end Sys2Proof.Machine
end

