-- ==== Sys2Proof/Laws/PerInstr.lean ====
section
/-! SUPPORT. The family `Encoding` of LAWS.json: what holds of every command as syntax. -/

namespace Sys2Proof.Laws.Encoding

/-- A command is well formed, its byte is one of the fourteen, and it carries an operand exactly in format `D`; in
format `Z` its operand is encoded as zeros (30_encoding R71, R72, R78). -/
def Statement (i : Instr) : Prop :=
  i.wellFormed = true ∧ wellFormedByte (encode i).1 = true ∧
    (Machine.operandOf i).getD 0#64 = (encode i).2 ∧
    (Machine.formatOf i = .data ↔ (Machine.operandOf i).isSome = true)

theorem step : Statement .step := by refine ⟨rfl, rfl, rfl, by decide⟩
theorem ldx (v : Word) : Statement (.ldx v) := by refine ⟨rfl, rfl, rfl, by simp [Machine.formatOf, Machine.operandOf]⟩
theorem ldw (v : Word) : Statement (.ldw v) := by refine ⟨rfl, rfl, rfl, by simp [Machine.formatOf, Machine.operandOf]⟩
theorem lds (v : Word) : Statement (.lds v) := by refine ⟨rfl, rfl, rfl, by simp [Machine.formatOf, Machine.operandOf]⟩
theorem init (v : Word) : Statement (.init v) := by refine ⟨rfl, rfl, rfl, by simp [Machine.formatOf, Machine.operandOf]⟩
theorem rdx : Statement .rdx := by refine ⟨rfl, rfl, rfl, by decide⟩
theorem rdw : Statement .rdw := by refine ⟨rfl, rfl, rfl, by decide⟩
theorem rds : Statement .rds := by refine ⟨rfl, rfl, rfl, by decide⟩
theorem rdseed : Statement .rdseed := by refine ⟨rfl, rfl, rfl, by decide⟩
theorem rdstat : Statement .rdstat := by refine ⟨rfl, rfl, rfl, by decide⟩
theorem derive (n : Word) : Statement (.derive n) := by refine ⟨rfl, rfl, rfl, by simp [Machine.formatOf, Machine.operandOf]⟩
theorem rseed : Statement .rseed := by refine ⟨rfl, rfl, rfl, by decide⟩
theorem inits : Statement .inits := by refine ⟨rfl, rfl, rfl, by decide⟩
theorem clrerr : Statement .clrerr := by refine ⟨rfl, rfl, rfl, by decide⟩

end Sys2Proof.Laws.Encoding
end

