-- ==== Sys2Proof/Laws/Step.lean ====
section
/-! SUPPORT. What a step can do, said once (Machine/Sequencer.lean). -/

namespace Sys2Proof.Machine

/-- `step` is `stepWith` at the hardware's table. -/
theorem step_eq (s : State) : step s = stepWith Config.sconst s := rfl

/-- A byte that decodes to a command is that command's byte. -/
theorem byte_of_decode {op : Byte} {d : Word} {i : Instr} (h : decode op d = .command i) : op = (encode i).1 := by
  by_cases hb : op ∈ legalBytes
  · simp only [legalBytes, List.mem_cons, List.not_mem_nil, or_false] at hb
    rcases hb with rfl | rfl | rfl | rfl | rfl | rfl | rfl | rfl | rfl | rfl | rfl | rfl | rfl | rfl <;>
      (simp [decode] at h; subst h; simp [encode, commandByte])
  · simp [legalBytes] at hb
    simp [decode, hb] at h

/-- The valid bits a command needs (the table of 60_exceptions R171). -/
def needs : Instr → State → Bool
  | .step, s => s.generatorValid
  | .rdx, s => s.xv
  | .rdw, s => s.wv
  | .rds, s => s.sv
  | .rdseed, s => s.seedv
  | .inits, s => s.seedv
  | .ldx _, _ => true
  | .ldw _, _ => true
  | .lds _, _ => true
  | .init _, _ => true
  | .rdstat, _ => true
  | .derive _, _ => true
  | .rseed, _ => true
  | .clrerr, _ => true

/-- What a command does where it needs nothing that is missing. -/
def effect : Instr → State → State
  | .step, s =>
    { s with x := (mswsNext s.primary).x, w := (mswsNext s.primary).w }.respond .ok (zext64 (mswsOut s.primary))
  | .ldx v, s => { s with x := v, xv := true }.respond .ok 0#64
  | .ldw v, s => { s with w := v, wv := true }.respond .ok 0#64
  | .lds v, s => { s with s := v, sv := true }.respond .ok 0#64
  | .init v, s => (s.construct v).respond .ok 0#64
  | .rdx, s => s.respond .ok s.x
  | .rdw, s => s.respond .ok s.w
  | .rds, s => s.respond .ok s.s
  | .rdseed, s => s.respond .ok s.seed
  | .rdstat, s => s.respond .ok s.status
  | .derive n, s => { s with nreg := n, esrc := false, seedv := false, phase := .setup }
  | .rseed, s => { s with esrc := true, seedv := false, phase := .entWait }
  | .inits, s => (s.construct s.seed).respond .ok 0#64
  | .clrerr, s => s.clearErrors.respond .ok 0#64

/-- Every command does its effect where its valid bits are there, and raises `INV` where one is missing
(60_exceptions R174). -/
theorem exec_eq (i : Instr) (s : State) :
    exec i s = .next (if needs i s then effect i s else s.raise .inv) := by
  cases i <;> rfl

theorem exec_of_needs {i : Instr} {s : State} (h : needs i s = true) : exec i s = .next (effect i s) := by
  rw [exec_eq, if_pos h]

theorem exec_of_missing {i : Instr} {s : State} (h : needs i s = false) : exec i s = .next (s.raise .inv) := by
  rw [exec_eq, if_neg (by simp [h])]

/-- What a command can do, said once. -/
theorem exec_cases {i : Instr} {s t : State} (h : exec i s = .next t) :
    (needs i s = true ∧ t = effect i s) ∨ (needs i s = false ∧ t = s.raise .inv) := by
  cases hn : needs i s with
  | true => rw [exec_of_needs hn] at h; exact .inl ⟨rfl, (Host.Outcome.next.inj h).symm⟩
  | false => rw [exec_of_missing hn] at h; exact .inr ⟨rfl, (Host.Outcome.next.inj h).symm⟩

/-- Every command, when accepted, answers a next state. -/
theorem exec_next (i : Instr) (s : State) : ∃ t, exec i s = .next t := ⟨_, exec_eq i s⟩

/-- Everything a step of the engine can do: reset, give an owed response, wait for a command, accept one, or make the
micro-step of its phase (41_seed_derivation R140). -/
theorem stepWith_cases {table : Table} {s t : State} (h : stepWith table s = .next t) :
    (s.pins.rst = true ∧ t = s.tick.resetRegisters) ∨
    (s.pins.rst = false ∧ ∃ r, s.owed = some r ∧ t = s.tick.deliver r) ∨
    (s.pins.rst = false ∧ s.owed = none ∧ s.phase = .idle ∧ s.presented = none ∧ t = s.tick) ∨
    (s.pins.rst = false ∧ s.owed = none ∧ s.phase = .idle ∧
      ∃ op d i, s.presented = some (op, d) ∧ decode op d = .command i ∧ exec i s.tick = .next t) ∨
    (s.pins.rst = false ∧ s.owed = none ∧ s.phase = .idle ∧
      ∃ op d, s.presented = some (op, d) ∧ decode op d = .illegal ∧ t = s.tick.raise .ill) ∨
    (s.pins.rst = false ∧ s.owed = none ∧ s.phase = .entWait ∧ t = s.entropyStep) ∨
    (s.pins.rst = false ∧ s.owed = none ∧ s.phase = .setup ∧ t = s.setupStep table) ∨
    (s.pins.rst = false ∧ s.owed = none ∧ s.phase = .fetch ∧ t = s.fetchStep) ∨
    (s.pins.rst = false ∧ s.owed = none ∧ s.phase = .scan ∧ t = s.scanStep) := by
  unfold stepWith at h
  cases hr : s.pins.rst with
  | true => simp only [hr, if_true, Host.Outcome.next.injEq] at h; exact .inl ⟨rfl, h.symm⟩
  | false =>
    right
    rw [if_neg (by simp [hr])] at h
    cases ho : s.owed with
    | some r => rw [ho] at h; simp only [Host.Outcome.next.injEq] at h; exact .inl ⟨rfl, r, rfl, h.symm⟩
    | none =>
      right
      rw [ho] at h
      cases hp : s.phase with
      | idle =>
        rw [hp] at h
        simp only [State.accept] at h
        cases hc : s.presented with
        | none => rw [hc] at h; simp only [Host.Outcome.next.injEq] at h; simp [h]
        | some c =>
          obtain ⟨op, d⟩ := c
          rw [hc] at h
          simp only at h
          cases hd : decode op d with
          | command i => rw [hd] at h; simp only at h; simp [hd, h]
          | illegal => rw [hd] at h; simp only [Host.Outcome.next.injEq] at h; simp [hd, h]
      | entWait => rw [hp] at h; simp only [Host.Outcome.next.injEq] at h; simp [h]
      | setup => rw [hp] at h; simp only [Host.Outcome.next.injEq] at h; simp [h]
      | fetch => rw [hp] at h; simp only [Host.Outcome.next.injEq] at h; simp [h]
      | scan => rw [hp] at h; simp only [Host.Outcome.next.injEq] at h; simp [h]

/-- The same of `step`. -/
theorem step_cases {s t : State} (h : step s = .next t) :
    (s.pins.rst = true ∧ t = s.tick.resetRegisters) ∨
    (s.pins.rst = false ∧ ∃ r, s.owed = some r ∧ t = s.tick.deliver r) ∨
    (s.pins.rst = false ∧ s.owed = none ∧ s.phase = .idle ∧ s.presented = none ∧ t = s.tick) ∨
    (s.pins.rst = false ∧ s.owed = none ∧ s.phase = .idle ∧
      ∃ op d i, s.presented = some (op, d) ∧ decode op d = .command i ∧ exec i s.tick = .next t) ∨
    (s.pins.rst = false ∧ s.owed = none ∧ s.phase = .idle ∧
      ∃ op d, s.presented = some (op, d) ∧ decode op d = .illegal ∧ t = s.tick.raise .ill) ∨
    (s.pins.rst = false ∧ s.owed = none ∧ s.phase = .entWait ∧ t = s.entropyStep) ∨
    (s.pins.rst = false ∧ s.owed = none ∧ s.phase = .setup ∧ t = s.setupStep Config.sconst) ∨
    (s.pins.rst = false ∧ s.owed = none ∧ s.phase = .fetch ∧ t = s.fetchStep) ∨
    (s.pins.rst = false ∧ s.owed = none ∧ s.phase = .scan ∧ t = s.scanStep) :=
  stepWith_cases h

/-- What the micro-step in `ENTWAIT` can do (41_seed_derivation R142). -/
theorem State.entropyStep_cases (s : State) :
    (s.pins.entAck = false ∧ s.entropyStep = s.tick) ∨
    (s.pins.entAck = true ∧ s.pins.entFail = true ∧ s.entropyStep = s.tick.raise .ent) ∨
    (s.pins.entAck = true ∧ s.pins.entFail = false ∧
      s.entropyStep = { s.tick with nreg := s.pins.entData, phase := .setup }) := by
  unfold State.entropyStep
  cases s.pins.entAck <;> cases s.pins.entFail <;> simp

/-- What the micro-step in `SCAN` can do (41_seed_derivation R145). -/
theorem State.scanStep_cases (s : State) :
    (s.scanned.full = false ∧ s.scanStep = s.keepScanning) ∨
    (s.scanned.full = true ∧ s.half = false ∧ s.scanStep = s.finishUpper) ∨
    (s.scanned.full = true ∧ s.half = true ∧ s.scanStep = s.finishLower) := by
  unfold State.scanStep
  cases s.scanned.full <;> cases s.half <;> simp

/-- Whatever a step does, the input pins take their next levels (log entry 2). -/
theorem stepWith_pins {table : Table} {s t : State} (h : stepWith table s = .next t) :
    t.pins = s.pinsNext.headD s.pins ∧ t.pinsNext = s.pinsNext.tail := by
  rcases stepWith_cases h with ⟨_, rfl⟩ | ⟨_, r, _, rfl⟩ | ⟨_, _, _, _, rfl⟩ | ⟨_, _, _, _, _, i, _, _, he⟩ |
    ⟨_, _, _, _, _, _, _, rfl⟩ | ⟨_, _, _, rfl⟩ | ⟨_, _, _, rfl⟩ | ⟨_, _, _, rfl⟩ | ⟨_, _, _, rfl⟩
  case inr.inr.inr.inl =>
    rcases exec_cases he with ⟨_, rfl⟩ | ⟨_, rfl⟩
    · cases i <;> exact ⟨rfl, rfl⟩
    · exact ⟨rfl, rfl⟩
  case inr.inr.inr.inr.inr.inl => rcases s.entropyStep_cases with ⟨_, h⟩ | ⟨_, _, h⟩ | ⟨_, _, h⟩ <;> rw [h] <;> exact ⟨rfl, rfl⟩
  case inr.inr.inr.inr.inr.inr.inr.inr =>
    rcases s.scanStep_cases with ⟨_, h⟩ | ⟨_, _, h⟩ | ⟨_, _, h⟩ <;> rw [h] <;> exact ⟨rfl, rfl⟩
  all_goals exact ⟨rfl, rfl⟩

/-! The step in each case, read forwards -/

theorem stepWith_deliver (table : Table) {s : State} {r : Response} (hr : s.pins.rst = false) (ho : s.owed = some r) :
    stepWith table s = .next (s.tick.deliver r) := by
  simp [stepWith, hr, ho]

theorem stepWith_idle (table : Table) {s : State} (hr : s.pins.rst = false) (ho : s.owed = none)
    (hp : s.phase = .idle) : stepWith table s = s.accept := by
  simp [stepWith, hr, ho, hp]

theorem stepWith_entWait (table : Table) {s : State} (hr : s.pins.rst = false) (ho : s.owed = none)
    (hp : s.phase = .entWait) : stepWith table s = .next s.entropyStep := by
  simp [stepWith, hr, ho, hp]

theorem stepWith_setup (table : Table) {s : State} (hr : s.pins.rst = false) (ho : s.owed = none)
    (hp : s.phase = .setup) : stepWith table s = .next (s.setupStep table) := by
  simp [stepWith, hr, ho, hp]

theorem stepWith_fetch (table : Table) {s : State} (hr : s.pins.rst = false) (ho : s.owed = none)
    (hp : s.phase = .fetch) : stepWith table s = .next s.fetchStep := by
  simp [stepWith, hr, ho, hp]

theorem stepWith_scan (table : Table) {s : State} (hr : s.pins.rst = false) (ho : s.owed = none)
    (hp : s.phase = .scan) : stepWith table s = .next s.scanStep := by
  simp [stepWith, hr, ho, hp]

/-! The outside world -/

/-- A tick keeps `rst` low for ever once it is. -/
theorem State.NoReset.tick {s : State} (h : s.NoReset) : s.tick.NoReset := by
  obtain ⟨h1, h2⟩ := h
  cases hp : s.pinsNext with
  | nil => simpa [State.NoReset, hp] using h1
  | cons p rest =>
    rw [hp] at h2
    simp only [State.NoReset, State.tick_pins, State.tick_pinsNext, hp, List.headD_cons, List.tail_cons]
    exact ⟨h2 p (by simp), fun q hq => h2 q (by simp [hq])⟩

/-- While the engine is busy a presented command stays on the port (70_reset_and_hazards R194). -/
theorem State.hostAfter_of_busy {s : State} {op : Byte} {d : Word} {rest : List HostMove}
    (hb : s.cmdReady = false) (hh : s.host = .issue op d :: rest) : s.hostAfter = .issue op d :: rest := by
  simp [State.hostAfter, hh, hb]

/-- Where the engine is ready a presented command is gone after the edge (10_state R32). -/
theorem State.hostAfter_of_ready {s : State} {op : Byte} {d : Word} {rest : List HostMove}
    (hb : s.cmdReady = true) (hh : s.host = .issue op d :: rest) : s.hostAfter = rest := by
  simp [State.hostAfter, hh, hb]

/-- `withFetchWord` puts the instruction where the next step accepts it. -/
theorem step_withFetchWord {s : State} {nbits w : Nat} {i : Instr} (h : decodeTableWord nbits w = some i) :
    step (s.withFetchWord nbits w) = exec i (s.withFetchWord nbits w).tick := by
  have hd : decode (tableByte nbits w) (tableOperand nbits w) = .command i := by
    unfold decodeTableWord at h
    split at h
    · rename_i j hj
      rw [hj, Option.some.inj h]
    · exact absurd h (by simp)
  rw [step_eq, stepWith_idle _ rfl rfl rfl, State.accept]
  simp only [State.withFetchWord, State.withCommand, State.presented, hd]

end Sys2Proof.Machine
end

