-- ==== Sys2Proof/Laws/Run.lean ====
section
/-! SUPPORT. A run (Machine/Run.lean): what its end keeps, when it is over, and how it is looked for. -/

namespace Sys2Proof.Machine

variable (s : State)

/-! `State.registers` keeps every register of 10_state R20 and what is owed, and puts the rest aside. -/

@[simp] theorem State.registers_x : s.registers.x = s.x := rfl
@[simp] theorem State.registers_w : s.registers.w = s.w := rfl
@[simp] theorem State.registers_s : s.registers.s = s.s := rfl
@[simp] theorem State.registers_xv : s.registers.xv = s.xv := rfl
@[simp] theorem State.registers_wv : s.registers.wv = s.wv := rfl
@[simp] theorem State.registers_sv : s.registers.sv = s.sv := rfl
@[simp] theorem State.registers_seed : s.registers.seed = s.seed := rfl
@[simp] theorem State.registers_seedv : s.registers.seedv = s.seedv := rfl
@[simp] theorem State.registers_eill : s.registers.eill = s.eill := rfl
@[simp] theorem State.registers_einv : s.registers.einv = s.einv := rfl
@[simp] theorem State.registers_eent : s.registers.eent = s.eent := rfl
@[simp] theorem State.registers_tx : s.registers.tx = s.tx := rfl
@[simp] theorem State.registers_tw : s.registers.tw = s.tw := rfl
@[simp] theorem State.registers_ts : s.registers.ts = s.ts := rfl
@[simp] theorem State.registers_nreg : s.registers.nreg = s.nreg := rfl
@[simp] theorem State.registers_a : s.registers.a = s.a := rfl
@[simp] theorem State.registers_c : s.registers.c = s.c := rfl
@[simp] theorem State.registers_m : s.registers.m = s.m := rfl
@[simp] theorem State.registers_j : s.registers.j = s.j := rfl
@[simp] theorem State.registers_i : s.registers.i = s.i := rfl
@[simp] theorem State.registers_half : s.registers.half = s.half := rfl
@[simp] theorem State.registers_uh : s.registers.uh = s.uh := rfl
@[simp] theorem State.registers_esrc : s.registers.esrc = s.esrc := rfl
@[simp] theorem State.registers_phase : s.registers.phase = s.phase := rfl
@[simp] theorem State.registers_owed : s.registers.owed = s.owed := rfl
@[simp] theorem State.registers_rsp : s.registers.rsp = none := rfl
@[simp] theorem State.registers_host : s.registers.host = [] := rfl
@[simp] theorem State.registers_pins : s.registers.pins = Pins.quiet := rfl
@[simp] theorem State.registers_pinsNext : s.registers.pinsNext = [] := rfl
@[simp] theorem State.registers_responses : s.registers.responses = [] := rfl

@[simp] theorem State.registers_primary : s.registers.primary = s.primary := rfl
@[simp] theorem State.registers_entReq : s.registers.entReq = s.entReq := rfl

/-! `State.withPins` writes the input pins alone. -/

@[simp] theorem State.withPins_x (p : Pins) : (s.withPins p).x = s.x := rfl
@[simp] theorem State.withPins_w (p : Pins) : (s.withPins p).w = s.w := rfl
@[simp] theorem State.withPins_s (p : Pins) : (s.withPins p).s = s.s := rfl
@[simp] theorem State.withPins_xv (p : Pins) : (s.withPins p).xv = s.xv := rfl
@[simp] theorem State.withPins_wv (p : Pins) : (s.withPins p).wv = s.wv := rfl
@[simp] theorem State.withPins_sv (p : Pins) : (s.withPins p).sv = s.sv := rfl
@[simp] theorem State.withPins_seed (p : Pins) : (s.withPins p).seed = s.seed := rfl
@[simp] theorem State.withPins_seedv (p : Pins) : (s.withPins p).seedv = s.seedv := rfl
@[simp] theorem State.withPins_eill (p : Pins) : (s.withPins p).eill = s.eill := rfl
@[simp] theorem State.withPins_einv (p : Pins) : (s.withPins p).einv = s.einv := rfl
@[simp] theorem State.withPins_eent (p : Pins) : (s.withPins p).eent = s.eent := rfl
@[simp] theorem State.withPins_tx (p : Pins) : (s.withPins p).tx = s.tx := rfl
@[simp] theorem State.withPins_tw (p : Pins) : (s.withPins p).tw = s.tw := rfl
@[simp] theorem State.withPins_ts (p : Pins) : (s.withPins p).ts = s.ts := rfl
@[simp] theorem State.withPins_nreg (p : Pins) : (s.withPins p).nreg = s.nreg := rfl
@[simp] theorem State.withPins_a (p : Pins) : (s.withPins p).a = s.a := rfl
@[simp] theorem State.withPins_c (p : Pins) : (s.withPins p).c = s.c := rfl
@[simp] theorem State.withPins_m (p : Pins) : (s.withPins p).m = s.m := rfl
@[simp] theorem State.withPins_j (p : Pins) : (s.withPins p).j = s.j := rfl
@[simp] theorem State.withPins_i (p : Pins) : (s.withPins p).i = s.i := rfl
@[simp] theorem State.withPins_half (p : Pins) : (s.withPins p).half = s.half := rfl
@[simp] theorem State.withPins_uh (p : Pins) : (s.withPins p).uh = s.uh := rfl
@[simp] theorem State.withPins_esrc (p : Pins) : (s.withPins p).esrc = s.esrc := rfl
@[simp] theorem State.withPins_phase (p : Pins) : (s.withPins p).phase = s.phase := rfl
@[simp] theorem State.withPins_owed (p : Pins) : (s.withPins p).owed = s.owed := rfl
@[simp] theorem State.withPins_rsp (p : Pins) : (s.withPins p).rsp = s.rsp := rfl
@[simp] theorem State.withPins_host (p : Pins) : (s.withPins p).host = s.host := rfl
@[simp] theorem State.withPins_responses (p : Pins) : (s.withPins p).responses = s.responses := rfl
@[simp] theorem State.withPins_pins (p : Pins) : (s.withPins p).pins = p := rfl
@[simp] theorem State.withPins_pinsNext (p : Pins) : (s.withPins p).pinsNext = [] := rfl

@[simp] theorem State.withPins_primary (p : Pins) : (s.withPins p).primary = s.primary := rfl
@[simp] theorem State.registers_withPins (p : Pins) : (s.withPins p).registers = s.registers := rfl
@[simp] theorem State.registers_tick : s.tick.registers = s.registers := rfl

/-! The environment of a run -/

@[simp] theorem EntropyAnswer.pins_rst (a : EntropyAnswer) : a.pins.rst = false := by cases a <;> rfl

/-- No step of a run is a reset (log entry 18). -/
@[simp] theorem Run.pins_rst (r : Run) : r.pins.rst = false := by
  unfold Run.pins
  split
  · exact EntropyAnswer.pins_rst _
  · rfl

theorem Run.pins_of_quiet {r : Run} (h : r.state.asksEntropy = false) : r.pins = Pins.quiet := by
  simp [Run.pins, h]

/-- A request is sampled exactly where the engine waits for entropy with nothing owed. -/
theorem State.asksEntropy_iff : s.asksEntropy = true ↔ s.phase = .entWait ∧ s.owed = none := by
  simp [State.asksEntropy, State.entReq]

theorem State.withPins_withPins (p q : Pins) : (s.withPins p).withPins q = s.withPins q := rfl

/-- The ports of a block as a run leaves them. -/
def State.Quiet (s : State) : Prop := s.pins = Pins.quiet ∧ s.pinsNext = []

theorem State.withPins_quiet : (s.withPins Pins.quiet).Quiet := ⟨rfl, rfl⟩

theorem State.Quiet.withPins {s : State} (h : s.Quiet) : s.withPins Pins.quiet = s := by
  rw [State.withPins, ← h.1, ← h.2]

theorem State.Quiet.rst {s : State} (h : s.Quiet) : s.pins.rst = false := by
  rw [h.1]
  rfl

theorem State.Quiet.tick {s : State} (h : s.Quiet) : s.tick.Quiet := by
  simp [State.Quiet, State.tick, h.1, h.2]

theorem State.Quiet.step {table : Table} {s t : State} (h : s.Quiet) (hs : stepWith table s = .next t) : t.Quiet := by
  obtain ⟨hp, hn⟩ := stepWith_pins hs
  exact ⟨by rw [hp, h.2]; exact h.1, by rw [hn, h.2]; rfl⟩

/-- A step of a run is the block's step under the pins of the run. -/
theorem Run.next_of_step {table : Table} {r : Run} {t : State}
    (h : stepWith table (r.state.withPins r.pins) = .next t) :
    r.next table = some
      { state := t.withPins Pins.quiet, answers := if r.state.asksEntropy then answersLeft r.answers else r.answers } := by
  simp [Run.next, h]

/-- Where a request is sampled, the block answers to the next entropy answer. -/
theorem Run.next_of_request {table : Table} {r : Run} (hp : r.state.phase = .entWait) (ho : r.state.owed = none) :
    r.next table = some
      { state := (r.state.withPins (r.answers.headD .never).pins).entropyStep.withPins Pins.quiet
        answers := answersLeft r.answers } := by
  have ha : r.state.asksEntropy = true := r.state.asksEntropy_iff.2 ⟨hp, ho⟩
  have hpins : r.pins = (r.answers.headD .never).pins := by simp [Run.pins, ha]
  rw [Run.next_of_step (stepWith_entWait table (s := r.state.withPins r.pins) r.pins_rst ho hp), hpins, if_pos ha]

/-- Where a response is owed, the block gives it. -/
theorem Run.next_of_owed {table : Table} {r : Run} {q : Response} (ho : r.state.owed = some q) :
    r.next table = some
      { state := ((r.state.withPins Pins.quiet).tick.deliver q).withPins Pins.quiet, answers := r.answers } := by
  have ha : r.state.asksEntropy = false := by simp [State.asksEntropy, ho]
  rw [Run.next_of_step (stepWith_deliver table (s := r.state.withPins r.pins) r.pins_rst ho), Run.pins_of_quiet ha,
    if_neg (by simp [ha])]

/-- Where no request is sampled, a step of a run is the block's own step. -/
theorem Run.next_of_quiet {table : Table} {r : Run} {t : State} (ha : r.state.asksEntropy = false)
    (hq : r.state.Quiet) (h : stepWith table r.state = .next t) :
    r.next table = some { state := t, answers := r.answers } := by
  have e : r.state.withPins r.pins = r.state := by rw [Run.pins_of_quiet ha, hq.withPins]
  rw [Run.next_of_step (by rw [e]; exact h), if_neg (by simp [ha]), (hq.step h).withPins]

/-- A command presented to a ready block is executed. -/
theorem Run.next_of_command {table : Table} {s t : State} {answers : List EntropyAnswer} {op : Byte} {d : Word}
    {rest : List HostMove} {i : Instr} (hp : s.phase = .idle) (ho : s.owed = none) (hq : s.Quiet)
    (hh : s.host = .issue op d :: rest) (hd : decode op d = .command i) (he : exec i s.tick = .next t) :
    Run.next table { state := s, answers := answers } = some { state := t, answers := answers } := by
  refine Run.next_of_quiet (r := { state := s, answers := answers }) ?_ hq ?_
  · simp [State.asksEntropy, State.entReq, hp]
  · rw [stepWith_idle _ hq.rst ho hp, State.accept]
    simp only [State.presented, hh, hd]
    exact he

/-- An illegal byte presented to a ready block raises `ILL`. -/
theorem Run.next_of_illegal {table : Table} {s : State} {answers : List EntropyAnswer} {op : Byte} {d : Word}
    {rest : List HostMove} (hp : s.phase = .idle) (ho : s.owed = none) (hq : s.Quiet)
    (hh : s.host = .issue op d :: rest) (hd : decode op d = .illegal) :
    Run.next table { state := s, answers := answers } =
      some { state := s.tick.raise .ill, answers := answers } := by
  refine Run.next_of_quiet (r := { state := s, answers := answers }) ?_ hq ?_
  · simp [State.asksEntropy, State.entReq, hp]
  · rw [stepWith_idle _ hq.rst ho hp, State.accept]
    simp only [State.presented, hh, hd]

/-- Every state of a run has quiet ports. -/
theorem Run.next_quiet {table : Table} {r r' : Run} (h : r.next table = some r') : r'.state.Quiet := by
  unfold Run.next at h
  split at h
  · cases h
    exact State.withPins_quiet _
  · cases h
  · cases h

/-! The end of a run -/

/-- When a run is over (70_reset_and_hazards R207), conjunct by conjunct; `ent_req = 0` follows from `PHASE`. -/
theorem State.runOver_iff :
    s.runOver = true ↔ (∀ m ∈ s.host, m = .wait) ∧ s.phase = .idle ∧ s.owed = none := by
  simp only [State.runOver, State.entReq, Bool.and_eq_true, List.all_eq_true, beq_iff_eq, Option.isNone_iff_eq_none,
    Bool.not_eq_true', beq_eq_false_iff_ne]
  constructor
  · rintro ⟨⟨⟨h, hp⟩, ho⟩, _⟩
    exact ⟨h, hp, ho⟩
  · rintro ⟨h, hp, ho⟩
    exact ⟨⟨⟨h, hp⟩, ho⟩, by rw [hp]; exact fun h => Phase.noConfusion h⟩

/-- A run with a command still presented is not over. -/
theorem State.not_runOver_of_issue {s : State} {op : Byte} {d : Word} {rest : List HostMove}
    (h : s.host = .issue op d :: rest) : s.runOver = false := by
  simp [State.runOver, h]

/-- A run with a response owed is not over. -/
theorem State.not_runOver_of_owed {s : State} {q : Response} (h : s.owed = some q) : s.runOver = false := by
  simp [State.runOver, h]

/-- "A state with `PHASE != IDLE` is never an end state" (70_reset_and_hazards R207). -/
theorem State.not_runOver_of_phase {s : State} (h : s.phase ≠ .idle) : s.runOver = false := by
  simp [State.runOver, h]

/-- A run that is over ends as it stands, with every budget. -/
theorem Run.finish_of_over {table : Table} {r : Run} (h : r.state.runOver = true) (budget : Nat) :
    r.finish table budget = some r.ending := by
  cases budget <;> simp [Run.finish, h]

/-- A run that is not over goes on with a step. -/
theorem Run.finish_of_next {table : Table} {r r' : Run} (h : r.state.runOver = false) (hn : r.next table = some r')
    (budget : Nat) : r.finish table (budget + 1) = r'.finish table budget := by
  simp [Run.finish, h, hn]

end Sys2Proof.Machine
end

