-- ==== Sys2Proof/Laws/Sequencer.lean ====
section
/-! SUPPORT. A derivation word by word and half by half: the function `derive_seed` (Machine/Derivation.lean) and the
micro-steps that carry it out (Machine/Sequencer.lean). -/

namespace Sys2Proof.Machine

/-- A half that ends uses part of its budget; more budget leaves more over, and less than it used does not suffice
(41_seed_derivation R135). -/
theorem extractLoop_budget {b : Nat} {g : Gen} {acc : Acc} {e : Extracted} (h : extractLoop b g acc = some e) :
    e.left < b ∧ (∀ more, extractLoop (b + more) g acc = some { e with left := e.left + more }) ∧
      ∀ k, k < b - e.left → extractLoop k g acc = none := by
  induction b generalizing g acc with
  | zero => simp [extractLoop] at h
  | succ b ih =>
    rw [extractLoop] at h
    split at h
    · rename_i hf
      cases h
      refine ⟨Nat.lt_succ_self _, ?_, ?_⟩
      · intro more
        rw [show b+1+more = (b+more)+1 by omega, extractLoop, if_pos hf]
      · intro k hk
        have : k = 0 := by simp at hk; omega
        subst this; rfl
    · rename_i hf
      obtain ⟨h1,h2,h3⟩ := ih h
      refine ⟨by omega, ?_, ?_⟩
      · intro more
        rw [show b+1+more = (b+more)+1 by omega, extractLoop, if_neg hf, h2]
      · intro k hk
        cases k with
        | zero => rfl
        | succ k => rw [extractLoop, if_neg hf]; exact h3 k (by omega)

/-- The sequencer is at work and will not be reset. -/
structure Running (s : State) : Prop where
  noReset : s.NoReset
  owed : s.owed = none
  phase : s.phase ≠ .idle

/-- A run of `k` micro-steps from a running state, `f` of them in `FETCH`. -/
inductive RunsTo (table : Table) : Nat → Nat → State → State → Prop where
  | refl (s : State) : RunsTo table 0 0 s s
  | step {s t u : State} {k f : Nat} : Running s → stepWith table s = .next t → RunsTo table k f t u →
      RunsTo table (k + 1) ((if s.phase = .fetch then 1 else 0) + f) s u

theorem RunsTo.trans {table : Table} {k f k' f' : Nat} {s t u : State} (h : RunsTo table k f s t)
    (h' : RunsTo table k' f' t u) : RunsTo table (k + k') (f + f') s u := by
  induction h with
  | refl s => simpa using h'
  | @step s t u k f hl hs _ ih =>
    have := RunsTo.step hl hs (ih h')
    rw [Nat.add_right_comm, Nat.add_assoc (if s.phase = .fetch then 1 else 0) f f']
    exact this

/-- Such a run in the terms of Safety.lean. -/
theorem RunsTo.after {table : Table} {k f : Nat} {s t : State} (h : RunsTo table k f s t) :
    s.afterWith table k = some t ∧ s.fetchesWith table k = f ∧
      ∀ l, l < k → ∃ u, s.afterWith table l = some u ∧ Running u := by
  induction h with
  | refl s => exact ⟨rfl, rfl, fun l hl => absurd hl (by omega)⟩
  | @step s t u k f hl hs _ ih =>
    obtain ⟨h1, h2, h3⟩ := ih
    refine ⟨by simp [State.afterWith, hs, h1], by simp [State.fetchesWith, hs, h2, hl.owed, hl.noReset.1], ?_⟩
    intro l hll
    cases l with
    | zero => exact ⟨s, rfl, hl⟩
    | succ l =>
      obtain ⟨u, hu, hv⟩ := h3 l (by omega)
      exact ⟨u, by simp [State.afterWith, hs, hu], hv⟩

/-- The nibble positions from the `q`-th on. -/
def positionsFrom (q : Nat) : List Nat := scanPositions.drop q

/-- What the scan of a word leaves as it was. -/
structure Kept (s u : State) : Prop where
  noReset : u.NoReset
  throwaway : u.throwaway = s.throwaway
  nreg : u.nreg = s.nreg
  primary : u.primary = s.primary
  responses : u.responses = s.responses
  rsp : u.rsp = none

/-- Where the scan of a word ends, by the accumulator `acc` it leads to: the half goes on with another word, the upper
half is complete, or the lower half and with it the derivation is. -/
inductive Scanned (s u : State) (acc : Acc) : Prop where
  | more : Kept s u → acc.full = false → u.phase = .fetch → u.owed = none → u.acc = acc → u.half = s.half →
      u.uh = s.uh → Scanned s u acc
  | upper : Kept s u → acc.full = true → s.half = false → u.phase = .fetch → u.owed = none → u.acc = Acc.empty →
      u.half = true → u.uh = acc.a → Scanned s u acc
  | lower : Kept s u → acc.full = true → s.half = true → u.phase = .idle → u.seedv = true →
      u.seed = combineHalves s.uh acc.a → u.owed = some ⟨.ok, combineHalves s.uh acc.a⟩ → Scanned s u acc

/-- The `SCAN` micro-steps over the rest of a word are `scanWord` (41_seed_derivation R145, R126). -/
theorem scan_word (table : Table) : ∀ (n : Nat) (s : State), Running s → s.phase = .scan → n < 8 →
    s.i.toNat = 4 * (7 - n) →
    ∃ k u, RunsTo table (k+1) 0 s u ∧ Scanned s u (scanWord s.j (positionsFrom (7-n)) s.acc) := by
  intro n
  induction n with
  | zero =>
    intro s hl hp hn hi
    have hst := stepWith_scan table hl.noReset.1 hl.owed hp
    have hpath : RunsTo table 1 0 s s.scanStep := by
      have := RunsTo.step hl hst (RunsTo.refl _)
      simpa [hp] using this
    refine ⟨0, _, hpath, ?_⟩
    have hw : scanWord s.j (positionsFrom (7-0)) s.acc = s.scanned := by
      simp only [positionsFrom, scanPositions, State.scanned, hi]
      simp [scanWord]
    rw [hw]
    have hi28 : s.i = 28#5 := BitVec.eq_of_toNat_eq hi
    rcases s.scanStep_cases with ⟨hf, h⟩|⟨hf, hh, h⟩|⟨hf, hh, h⟩ <;> rw [h]
    · refine .more ⟨hl.noReset.tick, rfl, rfl, rfl, rfl, rfl⟩ hf (by simp [State.keepScanning, hi28]) hl.owed rfl rfl rfl
    · exact .upper ⟨hl.noReset.tick, rfl, rfl, rfl, rfl, rfl⟩ hf hh rfl hl.owed rfl rfl rfl
    · exact .lower ⟨hl.noReset.tick, rfl, rfl, rfl, rfl, rfl⟩ hf hh rfl rfl rfl rfl
  | succ n ih =>
    intro s hl hp hn hi
    have hst := stepWith_scan table hl.noReset.1 hl.owed hp
    have hpath : RunsTo table 1 0 s s.scanStep := by
      have := RunsTo.step hl hst (RunsTo.refl _)
      simpa [hp] using this
    have hdrop : positionsFrom (7-(n+1)) = (4*(7-(n+1))) :: positionsFrom (7-n) := by
      have : n < 7 := by omega
      interval_cases n <;> rfl
    have hw : scanWord s.j (positionsFrom (7-(n+1))) s.acc = if s.scanned.full then s.scanned else scanWord s.j (positionsFrom (7-n)) s.scanned := by
      rw [hdrop, scanWord, State.scanned, hi]
    have hi28 : s.i ≠ 28#5 := by
      intro h; have : s.i.toNat = 28 := by rw [h]; rfl
      omega
    rcases s.scanStep_cases with ⟨hf, h⟩|⟨hf, hh, h⟩|⟨hf, hh, h⟩ <;> rw [h] at hpath <;> rw [hw, hf]
    · have hl' : Running s.keepScanning := ⟨hl.noReset.tick, hl.owed, by simp [State.keepScanning, hi28]⟩
      obtain ⟨k, u, hP, hS⟩ := ih s.keepScanning hl' (by simp [State.keepScanning, hi28]) (by omega) (by
        simp only [State.keepScanning, if_neg hi28, BitVec.toNat_add]
        have : (4#5).toNat = 4 := rfl
        omega)
      refine ⟨k+1, u, ?_, ?_⟩
      · have := hpath.trans hP; rw [Nat.add_comm 1] at this; exact this
      · simp only [Bool.false_eq_true, if_false]
        have e1 : s.keepScanning.acc = s.scanned := rfl
        rw [e1] at hS
        have e2 : s.keepScanning.j = s.j := rfl
        rw [e2] at hS
        cases hS with
        | more a b c d e f g => exact .more ⟨a.noReset,a.throwaway,a.nreg,a.primary,a.responses,a.rsp⟩ b c d e f g
        | upper a b c d e f g h => exact .upper ⟨a.noReset,a.throwaway,a.nreg,a.primary,a.responses,a.rsp⟩ b c d e f g h
        | lower a b c d e f g => exact .lower ⟨a.noReset,a.throwaway,a.nreg,a.primary,a.responses,a.rsp⟩ b c d e f g
    · exact ⟨0, _, hpath, .upper ⟨hl.noReset.tick, rfl, rfl, rfl, rfl, rfl⟩ hf hh rfl hl.owed rfl rfl rfl⟩
    · exact ⟨0, _, hpath, .lower ⟨hl.noReset.tick, rfl, rfl, rfl, rfl, rfl⟩ hf hh rfl rfl rfl rfl⟩

/-- From `FETCH`: one T-step and the scan of its word (41_seed_derivation R144, R145). -/
theorem fetch_word (table : Table) (s : State) (hl : Running s) (hp : s.phase = .fetch) :
    ∃ k u, RunsTo table (k+1) 1 s u ∧ Scanned s.fetchStep u (scanWord (mswsOut s.throwaway) scanPositions s.acc) := by
  have hst := stepWith_fetch table hl.noReset.1 hl.owed hp
  have hl' : Running s.fetchStep := ⟨hl.noReset.tick, hl.owed, by simp [State.fetchStep]⟩
  obtain ⟨k, u, hP, hS⟩ := scan_word table 7 s.fetchStep hl' rfl (by omega) rfl
  refine ⟨k+1, u, ?_, hS⟩
  have := RunsTo.step hl hst hP
  simpa [hp] using this

theorem throwaway_fetchStep (s : State) : s.fetchStep.throwaway = mswsNext s.throwaway := rfl

/-- Where a half that ends leaves the machine. -/
inductive HalfDone (s u : State) (e : Extracted) : Prop where
  | upper : u.NoReset → u.nreg = s.nreg → u.primary = s.primary → u.responses = s.responses → s.half = false →
      u.phase = .fetch → u.owed = none → u.acc = Acc.empty → u.half = true → u.uh = e.digits →
      u.throwaway = e.gen → HalfDone s u e
  | lower : u.NoReset → u.nreg = s.nreg → u.primary = s.primary → u.responses = s.responses → s.half = true →
      u.phase = .idle → u.seedv = true → u.seed = combineHalves s.uh e.digits →
      u.owed = some ⟨.ok, combineHalves s.uh e.digits⟩ → HalfDone s u e

/-- A half that the function ends within a budget, the micro-steps end too, with its digits and its T-steps. -/
theorem half_some (table : Table) (b : Nat) (s : State) (e : Extracted) (hl : Running s) (hp : s.phase = .fetch)
   (h : extractLoop b s.throwaway s.acc = some e) : ∃ k u, RunsTo table k (b - e.left) s u ∧ e.left < b ∧ HalfDone s u e := by
  induction b generalizing s with
  | zero => simp [extractLoop] at h
  | succ b ih =>
    obtain ⟨k, u, hP, hS⟩ := fetch_word table s hl hp
    rw [extractLoop] at h
    cases hS with
    | more a b' c d e' f g =>
      rw [if_neg (by simp [b'])] at h
      have := ih u ⟨a.noReset, d, by simp [c]⟩ c (by rw [a.throwaway, throwaway_fetchStep, e']; exact h)
      obtain ⟨k', v, hP', hlt, hD⟩ := this
      refine ⟨k + 1 + k', v, ?_, by omega, ?_⟩
      · have := hP.trans hP'
        rwa [show 1 + (b - e.left) = b + 1 - e.left by omega] at this
      · have i1 : s.fetchStep.half = s.half := rfl
        have i2 : s.fetchStep.uh = s.uh := rfl
        cases hD with
        | upper h1 h2 h3 h4 h5 => exact .upper h1 (h2.trans a.nreg) (h3.trans a.primary) (h4.trans a.responses) (by rw [← h5, f]; rfl) ‹_› ‹_› ‹_› ‹_› ‹_› ‹_›
        | lower h1 h2 h3 h4 h5 h6 h7 h8 h9 => exact .lower h1 (h2.trans a.nreg) (h3.trans a.primary) (h4.trans a.responses) (by rw [← h5, f]; rfl) h6 h7 (by rw [h8, g]; rfl) (by rw [h9, g]; rfl)
    | upper a b' c d e' f g h' =>
      rw [if_pos (by simp [b'])] at h
      cases h
      refine ⟨_, u, by simpa using hP, by simp, .upper a.noReset a.nreg a.primary a.responses c d e' f g h' a.throwaway⟩
    | lower a b' c d e' f g =>
      rw [if_pos (by simp [b'])] at h
      cases h
      refine ⟨_, u, by simpa using hP, by simp, .lower a.noReset a.nreg a.primary a.responses c d e' f g⟩

/-- A half that the function does not end within a budget keeps the sequencer busy for at least as many micro-steps. -/
theorem half_none (table : Table) (b : Nat) (s : State) (hl : Running s) (hp : s.phase = .fetch)
   (h : extractLoop b s.throwaway s.acc = none) : ∃ k u, RunsTo table k b s u ∧ b ≤ k := by
  induction b generalizing s with
  | zero => exact ⟨0, s, .refl s, Nat.le_refl _⟩
  | succ b ih =>
    obtain ⟨k, u, hP, hS⟩ := fetch_word table s hl hp
    rw [extractLoop] at h
    cases hS with
    | more a b' c d e' f g =>
      rw [if_neg (by simp [b'])] at h
      obtain ⟨k', v, hP', hlt⟩ := ih u ⟨a.noReset, d, by simp [c]⟩ c (by rw [a.throwaway, throwaway_fetchStep, e']; exact h)
      exact ⟨_, v, by simpa [Nat.add_comm] using hP.trans hP', by omega⟩
    | upper a b' c d e' f g h' => rw [if_pos (by simp [b'])] at h; cases h
    | lower a b' c d e' f g => rw [if_pos (by simp [b'])] at h; cases h

end Sys2Proof.Machine
end

