-- ==== Sys2Proof/Tests/Slice0.lean ====
section
/-! SUPPORT. The model's own tests: expected results from 95_test_vectors and the encoding tables of 30_encoding, one
step each; and for each statement with hypotheses a witness, a concrete state that meets them. -/

namespace Sys2Proof.Tests

/- One theorem is checked after another: so many small ones checked at a time took more threads than the memory limit
of the check leaves room for. The option ends with the namespace. -/
set_option Elab.async false

open Sys2Proof.Machine

/-- The outcome is a next state of which `p` holds. -/
def answers (o : Host.Outcome State Fault Refusal) (p : State → Bool) : Bool :=
  match o with
  | .next t => p t
  | .fault _ => false
  | .refused _ => false

/-- The stand-in table `SCONST_T` of 95_test_vectors 3.1. -/
def standIn : Table := fun i => (BitVec.ofNat 64 (i.val + 1) * 0x9E3779B97F4A7C15#64) ||| 1#64

/-- A table whose index 0 derives a seed in two T-steps: both words have eight different digits. -/
def quick : Table := fun _ => 0x012345670000000B#64

/-- After reset, with these moves of the host. -/
def presenting (moves : List HostMove) : State := { State.reset with host := moves }

/-- A constructed generator (V-S8 of 95_test_vectors). -/
def constructed : State :=
  State.reset.construct 0xB5AD4ECEDA1CE2A9#64

/-- In `SETUP` with the index `n`. -/
def settingUp (n : Word) : State := { State.reset with phase := .setup, nreg := n }

/-- In `ENTWAIT`, with these levels on the pins. -/
def waiting (pins : Pins) : State := { State.reset with phase := .entWait, esrc := true, pins := pins }

/-- The entropy source answers with this value. -/
def value (n : Word) : Pins := { rst := false, entAck := true, entFail := false, entData := n }

/-- The entropy source reports a failure. -/
def failure : Pins := { rst := false, entAck := true, entFail := true, entData := 0#64 }

/-- `rst` is high. -/
def resetting : Pins := { rst := true, entAck := false, entFail := false, entData := 0#64 }

/-- The second T-step of the trace of `n = 0` (95_test_vectors 3.2), before its first nibble: five digits are packed. -/
def scanning : State :=
  { State.reset with
    phase := .scan, ts := 0x9E3779B97F4A7C15#64, j := 0x3E30AA12#32, a := 0x000E37B9#32, c := 0x4A88#16, m := 20#6 }

/-- The same T-step before its third nibble: seven digits are packed. -/
def scanningLast : State :=
  { scanning with a := 0x012E37B9#32, c := 0x4A8E#16, m := 28#6, i := 8#5 }

/-- The fourth T-step of that trace before its third nibble: the lower half has seven digits. -/
def scanningLower : State :=
  { scanning with
    j := 0xC6205BAD#32, a := 0x0D16A5F9#32, c := 0xA662#16, m := 28#6, i := 8#5, half := true, uh := 0xA12E37B9#32 }

/-! ## Smoke tests of the well-formedness check and the decoder -/

/-- One ill-formed byte of each kind is refused (30_encoding R74, R75; 95_test_vectors 5). -/
theorem test_ill_formed_bytes_refused :
    wellFormedByte 0x00#8 = false ∧ wellFormedByte 0x11#8 = false ∧ wellFormedByte 0x24#8 = false ∧
    wellFormedByte 0x35#8 = false ∧ wellFormedByte 0x42#8 = false ∧ wellFormedByte 0x90#8 = false ∧
    wellFormedByte 0xFF#8 = false ∧ wellFormedByte 0x10#8 = true := by decide

/-- Bytes from the `opc` and `sel` columns of 30_encoding R72, bit by bit, class 1 and 2. -/
theorem test_decode_step_and_loads :
    decode 0b0001_0000#8 7#64 = .command .step ∧ decode 0b0010_0000#8 7#64 = .command (.ldx 7#64) ∧
    decode 0b0010_0001#8 7#64 = .command (.ldw 7#64) ∧ decode 0b0010_0010#8 7#64 = .command (.lds 7#64) ∧
    decode 0b0010_0011#8 7#64 = .command (.init 7#64) := by decide

/-- Class 3 of 30_encoding R72. -/
theorem test_decode_reads :
    decode 0b0011_0000#8 7#64 = .command .rdx ∧ decode 0b0011_0001#8 7#64 = .command .rdw ∧
    decode 0b0011_0010#8 7#64 = .command .rds ∧ decode 0b0011_0011#8 7#64 = .command .rdseed ∧
    decode 0b0011_0100#8 7#64 = .command .rdstat := by decide

/-- Classes 4 to 6 of 30_encoding R72. -/
theorem test_decode_seed_and_system :
    decode 0b0100_0000#8 7#64 = .command (.derive 7#64) ∧ decode 0b0100_0001#8 7#64 = .command .rseed ∧
    decode 0b0101_0000#8 7#64 = .command .inits ∧ decode 0b0110_0000#8 7#64 = .command .clrerr := by decide

/-- The illegal bytes that 95_test_vectors 5 lists. -/
theorem test_decode_illegal :
    ([0x00#8, 0x0F#8, 0x11#8, 0x1F#8, 0x24#8, 0x2F#8, 0x35#8, 0x3F#8, 0x42#8, 0x51#8, 0x61#8, 0x70#8, 0x90#8,
      0xFF#8].all fun b => decide (decode b 0#64 = .illegal)) = true := by decide

/-- The first bytes of the encodings of program P1 (95_test_vectors 6), encoded. -/
theorem test_encode_p1 :
    encode (.ldx 1#64) = (0x20#8, 1#64) ∧ encode (.ldw 1#64) = (0x21#8, 1#64) ∧ encode (.lds 1#64) = (0x22#8, 1#64) ∧
    encode .step = (0x10#8, 0#64) ∧ encode .rdstat = (0x34#8, 0#64) := by decide

/-- Opcode-table words of `CLRERR` and `INITS`, and one that no row has. -/
theorem test_table_words :
    decodeTableWord 8 0x60 = some .clrerr ∧ decodeTableWord 8 0x50 = some .inits ∧ decodeTableWord 8 0x61 = none := by
  decide

/-! ## The textual form (30_encoding R78, R79) -/

/-- "DERIVE -12345": the operand is V-D4 of 95_test_vectors. -/
theorem test_script_negative_index :
    readLine ['D', 'E', 'R', 'I', 'V', 'E', ' ', '-', '1', '2', '3', '4', '5'] =
      some [.derive 0xFFFFFFFFFFFFCFC7#64] := by decide +kernel

/-- "LDSTATE 1, 0x2, 3_0" is three commands. -/
theorem test_script_ldstate :
    readLine ['L', 'D', 'S', 'T', 'A', 'T', 'E', ' ', '1', ',', ' ', '0', 'x', '2', ',', ' ', '3', '_', '0'] =
      some [.ldx 1#64, .ldw 2#64, .lds 30#64] := by decide +kernel

/-- The written encoding of `LDX 1` in program P1: "20:0000000000000001". -/
theorem test_encoding_text :
    encodingText (.ldx 1#64) =
      ['2', '0', ':', '0', '0', '0', '0', '0', '0', '0', '0', '0', '0', '0', '0', '0', '0', '0', '1'] := by
  decide +kernel

/-! ## One command at a time -/

/-- V-S8 of 95_test_vectors. -/
theorem test_step_v_s8 :
    answers (exec .step constructed) (fun t => t.x = 0xE5E098E3183596E3#64 ∧ t.w = 0x6B5A9D9DB439C552#64 ∧
      t.s = 0xB5AD4ECEDA1CE2A9#64 ∧ t.owed = some ⟨.ok, 0x183596E3#64⟩) = true := by decide +kernel

/-- V-S10 of 95_test_vectors: `LDX 1` and `LDW 1` only. -/
theorem test_step_v_s10 :
    answers (exec .step { State.reset with x := 1#64, w := 1#64, xv := true, wv := true })
      (fun t => t.einv ∧ t.x = 1#64 ∧ t.w = 1#64 ∧ t.owed = some ⟨.inv, 0#64⟩) = true := by decide

/-- V-A6 of 95_test_vectors, from reset. -/
theorem test_ldx_v_a6 :
    answers (exec (.ldx 0xFFFFFFFFFFFFFFFF#64) State.reset)
      (fun t => t.x = 0xFFFFFFFFFFFFFFFF#64 ∧ t.status = 0x01#64 ∧ t.owed = some ⟨.ok, 0#64⟩) = true := by
  decide +kernel

/-- V-A10 of 95_test_vectors, from reset: bit 1 of `STATUS`. -/
theorem test_ldw_v_a10 :
    answers (exec (.ldw 5#64) State.reset) (fun t => t.w = 5#64 ∧ t.status = 0x02#64) = true := by decide +kernel

/-- V-A9 of 95_test_vectors, from reset: a zero increment is accepted, bit 2 of `STATUS`. -/
theorem test_lds_v_a9 :
    answers (exec (.lds 0#64) State.reset) (fun t => t.s = 0#64 ∧ t.status = 0x04#64) = true := by decide +kernel

/-- V-A12 of 95_test_vectors, from reset. -/
theorem test_init_v_a12 :
    answers (exec (.init 0#64) State.reset) (fun t => t.status = 0x07#64 ∧ t.owed = some ⟨.ok, 0#64⟩) = true := by
  decide +kernel

/-- V-A2 of 95_test_vectors. -/
theorem test_rdx_v_a2 :
    answers (exec .rdx State.reset) (fun t => t.status = 0x20#64 ∧ t.owed = some ⟨.inv, 0#64⟩) = true := by
  decide +kernel

/-- V-A7 of 95_test_vectors. -/
theorem test_rdx_v_a7 :
    answers (exec .rdx { State.reset with x := 0xFFFFFFFFFFFFFFFF#64, xv := true })
      (fun t => t.owed = some ⟨.ok, 0xFFFFFFFFFFFFFFFF#64⟩) = true := by decide

/-- V-A8 of 95_test_vectors: `W` is not valid though `X` is. -/
theorem test_rdw_v_a8 :
    answers (exec .rdw { State.reset with xv := true }) (fun t => t.status = 0x21#64) = true := by decide +kernel

/-- V-A19 of 95_test_vectors. -/
theorem test_rds_v_a19 :
    answers (exec .rds { State.reset with s := 0xA12E37B9BD16A5F9#64, sv := true })
      (fun t => t.owed = some ⟨.ok, 0xA12E37B9BD16A5F9#64⟩) = true := by decide

/-- V-A20 of 95_test_vectors. -/
theorem test_rdseed_v_a20 :
    answers (exec .rdseed { State.reset with seed := 0xA12E37B9BD16A5F9#64, seedv := true })
      (fun t => t.owed = some ⟨.ok, 0xA12E37B9BD16A5F9#64⟩) = true := by decide

/-- The bits of `STATUS` after V-A14 of 95_test_vectors. -/
theorem test_rdstat_v_a14 :
    answers (exec .rdstat { State.reset with xv := true, wv := true, sv := true, eill := true, einv := true })
      (fun t => t.owed = some ⟨.ok, 0x37#64⟩) = true := by decide +kernel

/-- V-A15 of 95_test_vectors: the flags go, the valid bits stay. -/
theorem test_clrerr_v_a15 :
    answers (exec .clrerr { State.reset with xv := true, wv := true, sv := true, eill := true, einv := true })
      (fun t => t.status = 0x07#64 ∧ t.owed = some ⟨.ok, 0#64⟩) = true := by decide +kernel

/-- V-A18 of 95_test_vectors. -/
theorem test_inits_v_a18 :
    answers (exec .inits { State.reset with seed := 0xA12E37B9BD16A5F9#64, seedv := true })
      (fun t => t.x = 0xA12E37B9BD16A5F9#64 ∧ t.s = 0xA12E37B9BD16A5F9#64 ∧ t.status = 0x0F#64) = true := by
  decide +kernel

/-- V-A4 of 95_test_vectors: no seed yet. -/
theorem test_inits_v_a4 :
    answers (exec .inits State.reset) (fun t => t.xv = false ∧ t.owed = some ⟨.inv, 0#64⟩) = true := by decide

/-- Accepting `DERIVE` hides the old seed and owes no response yet (41_seed_derivation R141). -/
theorem test_derive_starts :
    answers (exec (.derive 12345#64) { State.reset with seed := 1#64, seedv := true })
      (fun t => t.nreg = 12345#64 ∧ t.seedv = false ∧ t.phase = .setup ∧ t.owed = none) = true := by decide

/-- V-D16 of 95_test_vectors: a failed `RSEED`. -/
theorem test_rseed_v_d16 :
    answers (step (waiting failure)) (fun t => t.eent ∧ t.seedv = false ∧ t.phase = .idle ∧
      t.owed = some ⟨.ent, 0#64⟩) = true := by decide

/-- V-A14 of 95_test_vectors: the illegal byte 0x35. -/
theorem test_illegal_v_a14 :
    answers (step (presenting [.issue 0x35#8 0#64])) (fun t => t.eill ∧ t.owed = some ⟨.ill, 0#64⟩) = true := by decide

/-- The first step after reset runs the instruction placed by `withFetchWord`, here `CLRERR`. -/
theorem test_first_step_runs_the_table_word :
    answers (step (State.reset.withFetchWord 8 0x60)) (fun t => t.owed = some ⟨.ok, 0#64⟩ ∧ t.host = []) = true := by
  decide

/-! ## Derivation -/

/-- V-D3 and V-D4 of 95_test_vectors 3.3: 12345 and -12345. -/
theorem test_derive_v_d3_v_d4 :
    deriveSeed standIn 10 12345#64 = some ⟨0xC4ADB7122AE4D07F#64, 4⟩ ∧
    deriveSeed standIn 10 0xFFFFFFFFFFFFCFC7#64 = some ⟨0xC4ADB7122AE4D07F#64, 4⟩ := by decide +kernel

/-- V-D6, V-D8, V-D9 of 95_test_vectors 3.3. -/
theorem test_derive_v_d6_v_d8_v_d9 :
    deriveSeed standIn 10 100000000#64 = some ⟨0x5C6EF3729CA5BD29#64, 4⟩ ∧
    deriveSeed standIn 10 3000000000#64 = some ⟨0x2608C5A359460BFB#64, 4⟩ ∧
    deriveSeed standIn 10 21000000000#64 = some ⟨0x8C79210EB7A025F9#64, 3⟩ := by decide +kernel

/-- V-D11 and V-D12 of 95_test_vectors 3.3: 2^63 - 1 and 2^63. -/
theorem test_derive_v_d11_v_d12 :
    deriveSeed standIn 10 0x7FFFFFFFFFFFFFFF#64 = some ⟨0x403A6FCB4CB9E107#64, 4⟩ ∧
    deriveSeed standIn 10 0x8000000000000000#64 = some ⟨0x48CE1F6A4C037EA7#64, 4⟩ := by decide +kernel

/-- `x0` of V-D11 of 95_test_vectors 3.3. -/
theorem test_initial_x_v_d11 : initialX standIn 0x7FFFFFFFFFFFFFFF#64 = 0xA1CC0580A728A971#64 := by decide +kernel

/-- T-step 3 of the trace of `n = 0` (95_test_vectors 3.2). -/
theorem test_fetch_trace :
    answers (stepWith standIn { State.reset with
      phase := .fetch, tx := 0xE1F35FDB3E30AA12#64, tw := 0x3C6EF372FE94F82A#64, ts := 0x9E3779B97F4A7C15#64 })
      (fun t => t.tx = 0x6D9B5D83F16A5F99#64 ∧ t.tw = 0xDAA66D2C7DDF743F#64 ∧ t.j = 0xF16A5F99#32 ∧ t.i = 0#5 ∧
        t.phase = .scan) = true := by decide +kernel

/-- The eighth digit of the upper half in that trace. -/
theorem test_scan_completes_the_upper_half :
    answers (stepWith standIn scanningLast)
      (fun t => t.uh = 0xA12E37B9#32 ∧ t.half ∧ t.a = 0#32 ∧ t.c = 0#16 ∧ t.m = 0#6 ∧ t.phase = .fetch) = true := by
  decide +kernel

/-- The eighth digit of the lower half in that trace: the seed. -/
theorem test_scan_completes_the_seed :
    answers (stepWith standIn scanningLower)
      (fun t => t.seed = 0xA12E37B9BD16A5F9#64 ∧ t.seedv ∧ t.owed = some ⟨.ok, 0xA12E37B9BD16A5F9#64⟩) = true := by
  decide +kernel

/-! ## Witnesses: encoding -/

/-- For `OpcodeMapDecodes`. -/
theorem witness_illegal_bytes :
    0x00#8 ∉ legalBytes ∧ 0x35#8 ∉ legalBytes ∧ 0x70#8 ∉ legalBytes ∧ 0xFF#8 ∉ legalBytes := by decide

/-- For `DecodeEncodeAgree`. -/
theorem witness_decode_iff :
    decode 0x22#8 5#64 = .command (.lds 5#64) ∧ 0x22#8 = (encode (.lds 5#64)).1 ∧
    decode 0x10#8 (-1#64) = .command .step ∧ formatOf .step = .zero := by decide

/-- For `IllegalBytesAreTheListedRanges`, at the ends of the ranges. -/
theorem witness_illegal_ranges :
    decode 0x0F#8 0#64 = .illegal ∧ decode 0x1F#8 0#64 = .illegal ∧ decode 0x24#8 0#64 = .illegal ∧
    decode 0x3F#8 0#64 = .illegal ∧ decode 0x42#8 0#64 = .illegal ∧ decode 0x51#8 0#64 = .illegal ∧
    decode 0x61#8 0#64 = .illegal ∧ decode 0x70#8 0#64 = .illegal := by decide

/-- For `IgnoredOperandHasNoEffect`, a legal and an illegal byte. -/
theorem witness_ignored_operand :
    State.reset.cmdReady = true ∧ (∀ i, decode 0x10#8 5#64 = .command i → formatOf i = .zero) ∧
    (∀ i, decode 0xFF#8 5#64 = .command i → formatOf i = .zero) := by
  refine ⟨by decide, fun i h => ?_, fun i h => ?_⟩
  · have : Decoded.command .step = .command i := h
    cases this
    rfl
  · have : Decoded.illegal = .command i := h
    cases this

/-! ## Witnesses: steps, ports and reset -/

/-- For `StepRunsTheDecodedCommand`. -/
theorem witness_presented_command :
    let s := presenting [.issue 0x23#8 9#64]
    s.pins.rst = false ∧ s.phase = .idle ∧ s.owed = none ∧ s.host = .issue 0x23#8 9#64 :: [] ∧
    decode 0x23#8 9#64 = .command (.init 9#64) := by decide

/-- For `IllegalByteRaisesIll`. -/
theorem witness_presented_illegal_byte :
    let s := presenting [.issue 0xFF#8 9#64]
    s.pins.rst = false ∧ s.phase = .idle ∧ s.owed = none ∧ s.host = .issue 0xFF#8 9#64 :: [] ∧ 0xFF#8 ∉ legalBytes := by
  decide

/-- For `IdleEngineWaits`. -/
theorem witness_nothing_presented :
    (presenting []).presented = none ∧ (presenting [.wait]).presented = none ∧ (presenting []).pins.rst = false ∧
    (presenting []).phase = .idle ∧ (presenting []).owed = none := by decide

/-- A command held while a derivation runs, while a response is owed, and over a reset. For `PresentedCommandIsHeldWhileBusy`. -/
theorem witness_held_command :
    (let s := { scanning with host := [.issue 0x10#8 0#64] }
     s.busy = true ∧ s.accepts = false ∧ answers (step s) (fun t => t.host = s.host) = true) ∧
    (let s := { presenting [.issue 0x10#8 0#64] with owed := some ⟨.ok, 0#64⟩ }
     s.busy = true ∧ s.accepts = false ∧ answers (step s) (fun t => t.host = s.host) = true) ∧
    (let s := { scanning with host := [.issue 0x10#8 0#64], pins := resetting }
     s.busy = true ∧ s.accepts = false ∧ answers (step s) (fun t => t.host = s.host) = true) := by decide +kernel

/-- For `OwedResponseIsGivenForOneStep`. -/
theorem witness_owed_response :
    (let s := { State.reset with owed := some ⟨.inv, 0#64⟩ }
     s.pins.rst = false ∧ s.owed = some ⟨.inv, 0#64⟩ ∧ s.phase = .idle) ∧
    (let s := { State.reset with rsp := some ⟨.inv, 0#64⟩ }
     s.rspValid = true ∧ s.owed = none ∧ answers (step s) (fun t => t.rspValid = false) = true) ∧
    (let s := { State.reset with owed := some ⟨.inv, 0#64⟩, pins := resetting }
     s.pins.rst = true ∧ answers (step s) (fun t => t.rspValid = false) = true) := by decide

/-- A concrete state that meets the invariant with a derivation at work: seven digits packed. -/
theorem witness_invariant : scanningLast.Inv where
  slot := by unfold SlotInRange; decide
  position := by decide
  digits := fun _ => ⟨by unfold SlotInRange; decide, by decide +kernel, by decide +kernel⟩
  upper := fun _ h => absurd h (by decide)
  increment := fun _ => by decide
  seedShape := fun h => absurd h (by decide)
  seedIdle := fun h => absurd h (by decide)
  owedIdle := fun h => absurd rfl h
  entropy := fun h => absurd h (by decide)
  owedData := fun _ h => nomatch h
  rspData := fun _ h => nomatch h

/-- A concrete state that meets the invariant with a valid seed, V-D6 of 95_test_vectors (a repeated low digit). -/
def seeded : State := { State.reset with seed := 0x5C6EF3729CA5BD29#64, seedv := true, host := [.issue 0x50#8 0#64] }

theorem witness_invariant_with_seed : seeded.Inv where
  slot := by unfold SlotInRange; decide
  position := by decide
  digits := fun h => absurd h (by unfold State.extracting; decide)
  upper := fun h => absurd h (by unfold State.extracting; decide)
  increment := fun h => absurd h (by unfold State.extracting; decide)
  seedShape := fun _ => by unfold SeedShape DistinctDigits; decide +kernel
  seedIdle := fun _ => rfl
  owedIdle := fun h => absurd rfl h
  entropy := fun h => absurd h (by decide)
  owedData := fun _ h => nomatch h
  rspData := fun _ h => nomatch h

/-- The balance of responses: a step that accepts a command, and one that runs a derivation. For `CommandsAndResponsesBalance`. -/
theorem witness_balance :
    (seeded.pins.rst = false ∧ seeded.accepts = true ∧ answers (step seeded) (fun t => t.inFlight = 1) = true) ∧
    (scanningLast.pins.rst = false ∧ scanningLast.accepts = false ∧
      answers (step scanningLast) (fun t => t.inFlight = 1) = true) := by decide +kernel

/-- For `ResetEdgeClearsEveryRegister`. -/
theorem witness_reset_edge :
    (let s := { scanningLast with pins := resetting, host := [.issue 0x10#8 0#64] }
     s.pins.rst = true) ∧
    ({ State.reset with owed := some ⟨.ok, 0#64⟩, pins := resetting } : State).pins.rst = true := by decide

/-- For the last clause of `ResetValues`: `STEP`, the first of the six. -/
theorem witness_reset_values :
    Instr.step = .step ∧ answers (exec .step State.reset) (fun t => t.einv) = true := by decide

/-! ## Witnesses: the generator -/

/-- For `StepAdvancesTheGenerator`. -/
theorem witness_constructed : constructed.xv = true ∧ constructed.wv = true ∧ constructed.sv = true := by decide

/-- The clauses on the low and the high bits of the response, at their ends. For `StepAdvancesTheGenerator`. -/
theorem witness_output_bits :
    answers (exec .step constructed) (fun t => (t.owed.map fun r =>
      (r.data.getLsbD 0, r.data.getLsbD 31, r.data.getLsbD 32)) = some (true, false, false)) = true := by decide +kernel

/-- For `InitsConstructsFromTheSeed` (and `witness_invariant_with_seed`). -/
theorem witness_inits :
    seeded.seedv = true ∧ seeded.seed.getLsbD 0 = true ∧ State.reset.seedv = false := by decide

/-- A step that changes `S`, one that changes `X` and `W`, and one that changes `SEED`. For `GeneratorChangesOnlyByItsWriters`. -/
theorem witness_writers :
    (let s := presenting [.issue 0x22#8 7#64]
     s.pins.rst = false ∧ answers (step s) (fun t => t.s ≠ s.s) = true) ∧
    (let s := { constructed with host := [.issue 0x10#8 0#64] }
     s.pins.rst = false ∧ answers (step s) (fun t => t.x ≠ s.x ∧ t.w ≠ s.w) = true) ∧
    (scanningLower.pins.rst = false ∧
     answers (step scanningLower) (fun t => t.seed ≠ scanningLower.seed) = true) := by decide +kernel

/-! ## Witnesses: reads, flags and errors -/

/-- For `ReadsRespondWithTheRegister`. -/
theorem witness_reads :
    constructed.xv = true ∧ constructed.wv = true ∧ constructed.sv = true ∧ seeded.seedv = true := by decide

/-- For `UnwrittenRegisterRaisesInv`. -/
theorem witness_unwritten :
    State.reset.xv = false ∧ State.reset.wv = false ∧ State.reset.sv = false ∧ State.reset.seedv = false ∧
    ({ constructed with sv := false } : State).sv = false := by decide

/-- For `RdstatReportsTheStatusBits`. -/
theorem witness_status_above_bit_six :
    answers (exec .rdstat { constructed with seedv := true, eill := true, einv := true, eent := true }) (fun t =>
      (t.owed.map fun r => (r.data.getLsbD 6, r.data.getLsbD 7, r.data.getLsbD 63)) = some (true, false, false)) =
        true := by decide +kernel

/-- Steps that clear a flag, and that set each of the three. For `StickyFlagsChangeOnlyByErrorsAndClrerr`. -/
theorem witness_flags :
    (let s := { presenting [.issue 0x60#8 0#64] with eill := true, einv := true, eent := true }
     s.pins.rst = false ∧ answers (step s) (fun t => t.eill = false ∧ t.einv = false ∧ t.eent = false) = true) ∧
    (let s := presenting [.issue 0x35#8 0#64]
     s.pins.rst = false ∧ s.eill = false ∧ answers (step s) (fun t => t.eill) = true) ∧
    (let s := presenting [.issue 0x10#8 0#64]
     s.pins.rst = false ∧ s.einv = false ∧ answers (step s) (fun t => t.einv) = true) ∧
    (let s := waiting failure
     s.pins.rst = false ∧ s.eent = false ∧ answers (step s) (fun t => t.eent) = true) := by decide +kernel

/-- For `StickyFlagsInfluenceNothing`. -/
theorem witness_flags_influence_nothing :
    Instr.rdx ≠ .rdstat ∧ answers (exec .rdx constructed) (fun t => t.owed = some ⟨.ok, constructed.x⟩) = true := by
  decide +kernel

/-- Valid bits that stay, and steps that set each. For `ValidBitsAreClearedOnlyByReset`. -/
theorem witness_valid_bits :
    (let s := { constructed with host := [.issue 0x60#8 0#64] }
     s.pins.rst = false ∧ s.xv = true ∧ s.wv = true ∧ s.sv = true ∧ answers (step s) (fun t => t.xv) = true) ∧
    (let s := presenting [.issue 0x23#8 0#64]
     s.pins.rst = false ∧ s.xv = false ∧ s.wv = false ∧ s.sv = false ∧
       answers (step s) (fun t => t.xv ∧ t.wv ∧ t.sv) = true) := by decide +kernel

/-- Commands other than `DERIVE`, and other than `DERIVE` and `RSEED`, that answer a next state. For `CommandsLeaveTheHiddenRegisters`. -/
theorem witness_frames :
    (∀ n, Instr.rseed ≠ .derive n) ∧ (∀ n, Instr.step ≠ .derive n) ∧ Instr.step ≠ .rseed ∧
    answers (exec .rseed State.reset) (fun t => t.nreg = State.reset.nreg ∧ t.phase = .entWait) = true ∧
    answers (exec (.derive 5#64) State.reset) (fun t => t.phase = .setup) = true ∧
    answers (exec .step constructed) (fun t => t.esrc = constructed.esrc) = true := by
  refine ⟨?_, ?_, ?_, ?_, ?_, ?_⟩
  · intro n h
    cases h
  · intro n h
    cases h
  · decide
  · decide
  · decide
  · decide +kernel

/-- For `ReadsChangeNoRegister`. -/
theorem witness_read_frame :
    constructed.phase = .idle ∧ answers (exec .rds constructed) (fun t => t.einv = false) = true ∧
    answers (exec .rdseed constructed) (fun t => t.einv) = true := by decide

/-- For `DerivationLeavesThePrimaryGenerator`. -/
theorem witness_derivation_frame :
    let s := { scanning with host := [.issue 0x10#8 0#64] }
    s.pins.rst = false ∧ s.phase ≠ .idle ∧ s.host = .issue 0x10#8 0#64 :: [] ∧
      answers (step s) (fun t => t.host = s.host) = true := by decide +kernel

/-! ## Witnesses: seed derivation -/

/-- For `EntropyAnswerMicroStep`. -/
theorem witness_entropy_answers :
    let v := waiting (value 5#64)
    let f := waiting failure
    let w := waiting State.reset.pins
    v.pins.rst = false ∧ v.owed = none ∧ v.phase = .entWait ∧ v.pins.entAck = true ∧ v.pins.entFail = false ∧
    f.pins.rst = false ∧ f.owed = none ∧ f.phase = .entWait ∧ f.pins.entAck = true ∧ f.pins.entFail = true ∧
    w.pins.rst = false ∧ w.owed = none ∧ w.phase = .entWait ∧ w.pins.entAck = false := by decide

/-- For `UnansweredEntropyRequestHangs`. -/
theorem witness_unanswered :
    let s := { waiting State.reset.pins with host := [.issue 0x10#8 0#64] }
    s.phase = .entWait ∧ s.owed = none ∧ s.NoReset ∧ s.NeverAnswered ∧ s.host = .issue 0x10#8 0#64 :: [] := by
  unfold State.NoReset State.NeverAnswered
  decide

/-- For `FailedEntropyNeverConstructs`. -/
theorem witness_failed_entropy :
    let s := { waiting failure with host := [.issue 0x50#8 0#64] }
    s.phase = .entWait ∧ s.owed = none ∧ s.seedv = false ∧ s.NoReset ∧ s.pins.entAck = true ∧ s.pins.entFail = true ∧
      s.host = .issue 0x50#8 0#64 :: [] := by
  unfold State.NoReset
  decide

/-- The last index whose quotient needs no reduction, and the first that does (V-D7, V-D8 of 95_test_vectors). For `DecimalSplitIsExact`. -/
theorem witness_small_index :
    (tableIndex 2999999999#64).val = 29 ∧ (reducedQuotient 2999999999#64).toNat = 0 ∧
    (tableIndex 3000000000#64).val = 0 ∧ (reducedQuotient 3000000000#64).toNat = 1 ∧
    (2999999999#64).toNat < 3000000000 := by decide +kernel

/-- `idx` of V-D1, V-D7 and V-D11 of 95_test_vectors. For `SetupMicroStep`. -/
theorem witness_setup :
    (settingUp 0#64).pins.rst = false ∧ (settingUp 0#64).owed = none ∧ (settingUp 0#64).phase = .setup ∧
    ((0 : TableIndex).val = (settingUp 0#64).nreg.toNat / 100000000 % 30) ∧
    ((29 : TableIndex).val = (settingUp 2999999999#64).nreg.toNat / 100000000 % 30) ∧
    ((18 : TableIndex).val = (settingUp 0x7FFFFFFFFFFFFFFF#64).nreg.toNat / 100000000 % 30) := by decide +kernel

/-- For `FetchMicroStep`. -/
theorem witness_fetch :
    let s := { State.reset with phase := .fetch }
    s.pins.rst = false ∧ s.owed = none ∧ s.phase = .fetch := by decide

/-- The bits of `k`, `a1`, `c1` and `v` of the `SCAN` statement are those of this state. -/
def ScanBits (s : State) (k : Nibble) (a1 : Word32) (c1 : BitVec 16) (v : Word) : Prop :=
  s.pins.rst = false ∧ s.owed = none ∧ s.phase = .scan ∧ (s.m.toNat % 4 = 0 ∧ s.m.toNat ≤ 28) ∧ s.i.toNat % 4 = 0 ∧
  (∀ b, b < 4 → k.getLsbD b = s.j.getLsbD (s.i.toNat + b)) ∧
  (∀ b, b < 32 → a1.getLsbD b =
    if s.m.toNat ≤ b ∧ b < s.m.toNat + 4 then k.getLsbD (b - s.m.toNat) else s.a.getLsbD b) ∧
  (∀ b, b < 16 → c1.getLsbD b = (s.c.getLsbD b || b == k.toNat)) ∧
  (∀ b, b < 64 → v.getLsbD b = (b == 0 || if b < 32 then a1.getLsbD b else s.uh.getLsbD (b - 32)))

/-- A used digit, in the middle of a word and at its end (T-step 1 of the trace of `n = 0`: the second 9, and the last
nibble). For `ScanMicroStep`. -/
theorem witness_scan_used :
    let s := { scanning with j := 0x9E3779B9#32, a := 0x000000B9#32, c := 0x0A00#16, m := 8#6, i := 8#5 }
    let e := { scanning with j := 0x9E3779B9#32, a := 0x000E37B9#32, c := 0x4A88#16, m := 20#6, i := 28#5 }
    (ScanBits s 9#4 0x000009B9#32 0x0A00#16 0x9B9#64 ∧ s.c.getLsbD 9 = true ∧ s.i ≠ 28#5) ∧
    (ScanBits e 9#4 0x009E37B9#32 0x4A88#16 0x9E37B9#64 ∧ e.c.getLsbD 9 = true ∧ e.i = 28#5) := by
  unfold ScanBits
  decide +kernel

/-- A fresh digit with room left, in the middle of a word and at its end. For `ScanMicroStep`. -/
theorem witness_scan_fresh :
    let s := scanning
    let e := { scanning with i := 28#5, j := 0x6E30AA12#32 }
    (ScanBits s 2#4 0x002E37B9#32 0x4A8C#16 0x2E37B9#64 ∧ s.c.getLsbD 2 = false ∧ s.m ≠ 28#6 ∧ s.i ≠ 28#5) ∧
    (ScanBits e 6#4 0x006E37B9#32 0x4AC8#16 0x6E37B9#64 ∧ e.c.getLsbD 6 = false ∧ e.m ≠ 28#6 ∧ e.i = 28#5) := by
  unfold ScanBits
  decide +kernel

/-- A fresh digit for the last slot, of the upper half and of the lower. For `ScanMicroStep`. -/
theorem witness_scan_complete :
    (ScanBits scanningLast 0xA#4 0xA12E37B9#32 0x4E8E#16 0xA12E37B9#64 ∧ scanningLast.c.getLsbD 10 = false ∧
      scanningLast.m = 28#6 ∧ scanningLast.half = false) ∧
    (ScanBits scanningLower 0xB#4 0xBD16A5F9#32 0xAE62#16 0xA12E37B9BD16A5F9#64 ∧
      scanningLower.c.getLsbD 11 = false ∧ scanningLower.m = 28#6 ∧ scanningLower.half = true) := by
  unfold ScanBits
  decide +kernel

/-- A derivation about to be set up that will not be reset, and whose function ends (V-D9 of 95_test_vectors). For `SequencerAgreesWithTheFunction`. -/
theorem witness_sequencer_ends :
    (settingUp 21000000000#64).phase = .setup ∧ (settingUp 21000000000#64).owed = none ∧
    (settingUp 21000000000#64).NoReset ∧
    deriveSeed standIn 3 (settingUp 21000000000#64).nreg = some ⟨0x8C79210EB7A025F9#64, 3⟩ := by
  unfold State.NoReset
  decide +kernel

/-- With a table of zeros the throwaway generator stands still and no half is ever completed. For `SequencerAgreesWithTheFunction`. -/
theorem witness_sequencer_never_ends :
    ∀ budget, deriveSeed (fun _ => 0#64) budget (settingUp 0#64).nreg = none := by
  have frozen : ∀ b, extractLoop b ⟨0#64, 0#64, 0#64⟩ ⟨0#32, 1#16, 4#6⟩ = none := by
    intro b
    induction b with
    | zero => rfl
    | succ b ih =>
      have h1 : mswsNext ⟨0#64, 0#64, 0#64⟩ = ⟨0#64, 0#64, 0#64⟩ := by decide +kernel
      have h2 : scanWord (mswsOut ⟨0#64, 0#64, 0#64⟩) scanPositions ⟨0#32, 1#16, 4#6⟩ = ⟨0#32, 1#16, 4#6⟩ := by
        decide +kernel
      rw [extractLoop, h1, h2, if_neg (by decide), ih]
  intro budget
  have h0 : initialGen (fun _ => 0#64) (settingUp 0#64).nreg = ⟨0#64, 0#64, 0#64⟩ := by decide +kernel
  have hx : extractHalf budget ⟨0#64, 0#64, 0#64⟩ = none := by
    cases budget with
    | zero => rfl
    | succ b =>
      have h1 : mswsNext ⟨0#64, 0#64, 0#64⟩ = ⟨0#64, 0#64, 0#64⟩ := by decide +kernel
      have h2 : scanWord (mswsOut ⟨0#64, 0#64, 0#64⟩) scanPositions Acc.empty = ⟨0#32, 1#16, 4#6⟩ := by decide +kernel
      rw [extractHalf, extractLoop, h1, h2, if_neg (by decide), frozen]
  rw [deriveSeed, h0, hx]

/-- Two states that differ in everything but the index, and a run from the first that reaches `IDLE` (with a table that
makes it short). For `DerivationDependsOnItsIndexAlone`. -/
theorem witness_index_alone :
    let s := settingUp 0#64
    let s' := { settingUp 0#64 with x := 1#64, xv := true, a := 5#32, uh := 9#32, half := true, esrc := true }
    s.phase = .setup ∧ s'.phase = .setup ∧ s.owed = none ∧ s'.owed = none ∧ s.NoReset ∧ s'.NoReset ∧
    s.nreg = s'.nreg ∧
    (s.afterWith quick 19).any (fun t => t.phase = .idle ∧ t.seedv) = true ∧
    ∀ l, l < 19 → (s.afterWith quick l).any (fun u => u.phase ≠ .idle) = true := by
  unfold State.NoReset
  decide +kernel

/-- The two halves that `extract_half` answers for an index. -/
def halves (n : Word) : Option (Word32 × Word32) :=
  match extractHalf 10 (initialGen standIn n) with
  | none => none
  | some up => (extractHalf up.left up.gen).map fun lo => (up.digits, lo.digits)

/-- A derivation with the digit forced to a repeated one (V-D6), one with it forced to a new one (V-D5), and one whose
last digit was odd already (V-D3), with their halves (95_test_vectors 3.3). For `DerivedSeedShape`. -/
theorem witness_seed_shape :
    (deriveSeed standIn 10 100000000#64 = some ⟨0x5C6EF3729CA5BD29#64, 4⟩ ∧
      halves 100000000#64 = some (0x5C6EF372#32, 0x9CA5BD28#32) ∧ (0x9CA5BD28#32).getLsbD 0 = false ∧
      ∃ p : Fin 8, p ≠ 0 ∧ nibbleAt 0x9CA5BD28#32 (4 * p.val) = nibbleAt 0x9CA5BD28#32 0 + 1#4) ∧
    (deriveSeed standIn 10 99999999#64 = some ⟨0xA6942E754A95EC31#64, 4⟩ ∧
      halves 99999999#64 = some (0xA6942E75#32, 0x4A95EC30#32) ∧ (0x4A95EC30#32).getLsbD 0 = false ∧
      ¬ ∃ p : Fin 8, p ≠ 0 ∧ nibbleAt 0x4A95EC30#32 (4 * p.val) = nibbleAt 0x4A95EC30#32 0 + 1#4) ∧
    (deriveSeed standIn 10 12345#64 = some ⟨0xC4ADB7122AE4D07F#64, 4⟩ ∧
      halves 12345#64 = some (0xC4ADB712#32, 0x2AE4D07F#32) ∧ (0x2AE4D07F#32).getLsbD 0 = true) := by
  decide +kernel

/-- The hypotheses of the claim that 90_conflicts C2 rejects: an odd table, and V-D6 of 95_test_vectors. For `LowerHalfDigitsAlwaysDistinct`. -/
theorem witness_lower_half :
    (∀ index, (standIn index).getLsbD 0 = true) ∧
    deriveSeed standIn 5 100000000#64 = some ⟨0x5C6EF3729CA5BD29#64, 4⟩ := by decide +kernel

/-- An index below 2^63, one above, and 2^63 itself. For `IndexAndNegationGiveOneSeed`. -/
theorem witness_normal_forms :
    (0x7FFFFFFFFFFFFFFF#64).toNat < 2 ^ 63 ∧ 2 ^ 63 < (0x8000000000000001#64).toNat ∧
    (0x8000000000000000#64).toNat = 2 ^ 63 := by decide +kernel

/-- A derivation of two T-steps, the fewest there are. For `DerivationTakesAtLeastTwoTSteps`. -/
theorem witness_two_t_steps :
    (deriveSeed quick 2 0#64).any (fun d => d.tSteps = 2) = true ∧ deriveSeed quick 1 0#64 = none ∧
    1 < 2 := by decide +kernel

/-! ## Witnesses: invariants and isolation -/

/-- States that meet the invariant (`witness_invariant`, `witness_invariant_with_seed`) and have a next state. For `EveryStepKeepsTheInvariant`. -/
theorem witness_invariant_steps :
    answers (step scanningLast) (fun t => t.half) = true ∧ answers (step seeded) (fun t => t.xv) = true := by
  decide +kernel

/-- For `BlocksOfAChipAreIsolated`. -/
theorem witness_chip :
    (match Chip.stepAt 0 [presenting [.issue 0x23#8 5#64], State.reset] with
      | .next chip => decide (chip.length = 2 ∧ (chip[0]?.map fun t => t.xv) = some true ∧ chip[1]? = some State.reset)
      | .fault _ => false
      | .refused _ => false) = true ∧ (1 : Nat) ≠ 0 := by decide +kernel

/-! ## Runs (70_reset_and_hazards R207) -/

/-- The first command of program P1 (95_test_vectors 6), as a run: over after two steps, not before. For
`RunHasOneEnd`. -/
theorem test_run_ends :
    ((Run.start State.reset [(0x20#8, 1#64)] []).finish standIn 2).map (fun e => (e.endState.x, e.observation)) =
      some (1#64, [⟨.ok, 0#64⟩]) ∧
    (Run.start State.reset [(0x20#8, 1#64)] []).finish standIn 1 = none := by decide +kernel

/-- The empty script is over at its start, in the start state. -/
theorem test_empty_run :
    (Run.start constructed [] []).finish standIn 0 = some { endState := constructed.registers, observation := [] } := by
  decide +kernel

/-- A script with an error and an illegal byte ends (commands 5 and 6 of program P4, and V-A2 of 95_test_vectors). For
`ScriptsWithoutDerivationsEnd` and `EndedRunHasAnsweredEveryCommand`. -/
theorem witness_script_ends :
    State.reset.cmdReady = true ∧ (∀ c ∈ [(0x00#8, 0#64), (0x30#8, 0#64)], c.1 ≠ 0x40#8 ∧ c.1 ≠ 0x41#8) ∧
    ((Run.start State.reset [(0x00#8, 0#64), (0x30#8, 0#64)] []).finish standIn 4).map (fun e => e.observation) =
      some [⟨.ill, 0#64⟩, ⟨.inv, 0#64⟩] := by
  refine ⟨by decide, ?_, by decide +kernel⟩
  intro c hc
  simp only [List.mem_cons, List.not_mem_nil, or_false] at hc
  rcases hc with rfl | rfl <;> decide

/-- A `DERIVE`, and an `RSEED` with a value, over an index that derives quickly. For `DerivationRunsEndWithTheirSeed`. -/
theorem witness_derivation_run :
    State.reset.cmdReady = true ∧ (deriveSeed quick 2 0#64).isSome = true ∧
    [EntropyAnswer.value 0#64].head? = some (.value 0#64) ∧
    ((Run.start State.reset [(0x40#8, 0#64)] []).finish quick 21).isSome = true ∧
    ((Run.start State.reset [(0x41#8, 0#64)] [.value 0#64]).finish quick 22).isSome = true := by decide +kernel

/-- An `RSEED` answered `Fail`, and one never answered, with and without an entry in the list of answers. For
`FailedRseedEndsItsRun` and `UnansweredRunHasNoEnd`. -/
theorem witness_entropy_runs :
    State.reset.cmdReady = true ∧ [EntropyAnswer.fail].head? = some .fail ∧
    [EntropyAnswer.never].head? = some .never ∧ ([] : List EntropyAnswer).head? = none := by decide

/-- A run that is over, and its next step. For `RunHasOneEnd`. -/
theorem witness_run_over :
    (Run.start State.reset [] []).state.runOver = true ∧
    ((Run.start State.reset [] []).next standIn).isSome = true := by decide +kernel

end Sys2Proof.Tests
end

section
/-! PROOFS. The state, its ports and its invariant: what a step can change, and the statements of 10_state. -/

namespace Sys2Proof.Machine

/-! ## What a command leaves unchanged -/

/-- What no command writes when it is accepted: `SEED`, the hidden working registers but `NREG` and `ESRC`, the
response port and the outside world (10_state R28, R29, R37). -/
structure SameHidden (s t : State) : Prop where
  seed : t.seed = s.seed
  tx : t.tx = s.tx
  tw : t.tw = s.tw
  ts : t.ts = s.ts
  a : t.a = s.a
  c : t.c = s.c
  m : t.m = s.m
  j : t.j = s.j
  i : t.i = s.i
  half : t.half = s.half
  uh : t.uh = s.uh
  rsp : t.rsp = s.rsp
  host : t.host = s.host
  pins : t.pins = s.pins
  pinsNext : t.pinsNext = s.pinsNext
  responses : t.responses = s.responses

theorem effect_sameHidden (i : Instr) (s : State) : SameHidden s (effect i s) := by
  cases i <;> constructor <;> rfl

theorem raise_sameHidden (e : Err) (s : State) : SameHidden s (s.raise e) := by
  constructor <;> rfl

theorem exec_sameHidden {i : Instr} {s t : State} (h : exec i s = .next t) : SameHidden s t := by
  rcases exec_cases h with ⟨_, rfl⟩ | ⟨_, rfl⟩
  · exact effect_sameHidden i s
  · exact raise_sameHidden .inv s

/-- The two commands that start a derivation (41_seed_derivation R141). -/
def startsDerivation : Instr → Bool
  | .derive _ => true
  | .rseed => true
  | _ => false

theorem eq_of_startsDerivation {i : Instr} (h : startsDerivation i = true) : (∃ n, i = .derive n) ∨ i = .rseed := by
  cases i
  case derive n => exact .inl ⟨n, rfl⟩
  case rseed => exact .inr rfl
  all_goals cases h

/-- A command that starts no derivation answers `OK` at once and leaves the registers of a derivation
(10_state R29, R31). -/
theorem effect_of_no_derivation {i : Instr} (h : startsDerivation i = false) (s : State) :
    (effect i s).nreg = s.nreg ∧ (effect i s).esrc = s.esrc ∧ (effect i s).seedv = s.seedv ∧
      (effect i s).phase = s.phase ∧ ∃ v, (effect i s).owed = some ⟨.ok, v⟩ := by
  cases i
  case derive n => cases h
  case rseed => cases h
  all_goals exact ⟨rfl, rfl, rfl, rfl, _, rfl⟩

/-- Settles O29: where a valid bit is missing the command is `raise`, and otherwise its effect; both keep the hidden
registers. -/
theorem commandsLeaveTheHiddenRegisters : Obligations.CommandsLeaveTheHiddenRegisters := by
  intro i s t h
  have hf := exec_sameHidden h
  refine ⟨hf.seed, hf.tx, hf.tw, hf.ts, hf.a, hf.c, hf.m, hf.j, hf.i, hf.half, hf.uh, hf.rsp, hf.host, hf.pins,
    hf.pinsNext, hf.responses, ?_⟩
  rcases exec_cases h with ⟨_, rfl⟩ | ⟨hn, rfl⟩
  · cases hd : startsDerivation i with
    | false =>
      obtain ⟨hnreg, hesrc, hseedv, hphase, _⟩ := effect_of_no_derivation hd s
      refine ⟨fun _ => hnreg, fun _ _ => ⟨hesrc, hseedv, .inl hphase⟩, ?_, ?_⟩
      · rintro n rfl
        cases hd
      · rintro rfl
        cases hd
    | true =>
      rcases eq_of_startsDerivation hd with ⟨n, rfl⟩ | rfl
      · exact ⟨fun hi => absurd rfl (hi n), fun hi => absurd rfl (hi n), fun _ _ => rfl, fun hi => nomatch hi⟩
      · exact ⟨fun _ => rfl, fun _ hi => absurd rfl hi, fun _ hi => (nomatch hi), fun _ => rfl⟩
  · refine ⟨fun _ => rfl, fun _ _ => ⟨rfl, rfl, .inr rfl⟩, ?_, ?_⟩
    · rintro n rfl
      cases hn
    · rintro rfl
      cases hn

/-! ## The invariant, phase by phase -/

/-- Where no derivation runs, the invariant speaks of the counters, the seed and the two response registers. -/
theorem State.Inv.of_idle {t : State} (hp : t.phase = .idle) (slot : SlotInRange t.m) (position : t.i.toNat % 4 = 0)
    (seedShape : t.seedv = true → SeedShape t.seed) (owedData : ∀ r, t.owed = some r → r.code ≠ .ok → r.data = 0#64)
    (rspData : ∀ r, t.rsp = some r → r.code ≠ .ok → r.data = 0#64) : t.Inv := by
  have hx : ¬ t.extracting := by simp [State.extracting, hp]
  exact ⟨slot, position, fun h => absurd h hx, fun h => absurd h hx, fun h => absurd h hx, seedShape, fun _ => hp,
    fun _ => hp, fun h => absurd (hp.symm.trans h) (by decide), owedData, rspData⟩

/-- Where a derivation has been accepted and extracts no digits yet. -/
theorem State.Inv.of_starting {t : State} (hp : t.phase = .setup ∨ t.phase = .entWait ∧ t.esrc = true)
    (slot : SlotInRange t.m) (position : t.i.toNat % 4 = 0) (hv : t.seedv = false) (ho : t.owed = none)
    (hr : t.rsp = none) : t.Inv := by
  have hx : ¬ t.extracting := by
    rcases hp with hp | ⟨hp, _⟩ <;> simp [State.extracting, hp]
  refine ⟨slot, position, fun h => absurd h hx, fun h => absurd h hx, fun h => absurd h hx, ?_, ?_, ?_, ?_, ?_, ?_⟩
  case refine_4 =>
    intro h
    rcases hp with hp | ⟨_, he⟩
    · exact absurd (hp.symm.trans h) (by decide)
    · exact he
  all_goals simp [hv, ho, hr]

/-- While a derivation extracts digits. -/
theorem State.Inv.of_extracting {t : State} (hp : t.extracting) (position : t.i.toNat % 4 = 0) (digits : t.acc.Inv)
    (upper : t.half = true → DistinctDigits t.uh) (increment : t.ts.getLsbD 0 = true) (hv : t.seedv = false)
    (ho : t.owed = none) (hr : t.rsp = none) : t.Inv := by
  have hw : t.phase ≠ .entWait := by
    rcases hp with hp | hp <;> simp [hp]
  exact ⟨digits.slot, position, fun _ => digits, fun _ => upper, fun _ => increment, by simp [hv], by simp [hv],
    by simp [ho], fun h => absurd h hw, by simp [ho], by simp [hr]⟩

theorem State.Inv.seedv_of_running {s : State} (h : s.Inv) (hp : s.phase ≠ .idle) : s.seedv = false := by
  cases hv : s.seedv with
  | false => rfl
  | true => exact absurd (h.seedIdle hv) hp

/-! ## What keeps the invariant -/

theorem slotInRange_zero : SlotInRange 0#6 := by unfold SlotInRange; decide

/-- The accumulator at the start of a half: no digit is packed and none is marked (41_seed_derivation R126). -/
theorem Acc.empty_inv : Acc.empty.Inv where
  slot := slotInRange_zero
  marked := fun k => by simp [Acc.used, Acc.empty]
  distinct := fun p q hp => absurd hp (by simp [Acc.empty])

/-- A seed put together from two halves of eight distinct digits: only digit 0 of the lower half can change
(41_seed_derivation R134, 90_conflicts C2). -/
theorem seedShape_combineHalves {up lo : Word32} (hu : DistinctDigits up) (hl : DistinctDigits lo) :
    SeedShape (combineHalves up lo) := by
  refine ⟨getLsbD_combineHalves up lo 0 (by decide), by rwa [highHalf_combineHalves], fun p q hp hq hne => ?_⟩
  rw [lowHalf_combineHalves, nibbleAt_or_one lo p hp, nibbleAt_or_one lo q hq]
  exact hl p q hne

theorem State.resetRegisters_inv (s : State) : s.resetRegisters.Inv :=
  .of_idle rfl slotInRange_zero rfl (by simp) (by simp) (by simp)

theorem State.Inv.tick {s : State} (h : s.Inv) : s.tick.Inv :=
  ⟨h.slot, h.position, h.digits, h.upper, h.increment, h.seedShape, h.seedIdle, h.owedIdle, h.entropy, h.owedData,
    by simp⟩

theorem State.Inv.deliver {s : State} {r : Response} (h : s.Inv) (ho : s.owed = some r) : (s.deliver r).Inv := by
  refine .of_idle (h.owedIdle (by simp [ho])) h.slot h.position h.seedShape (by simp) fun r' hr => ?_
  cases hr
  exact h.owedData r ho

theorem State.Inv.raise {s : State} (h : s.Inv) (e : Err) : (s.raise e).Inv := by
  refine .of_idle rfl h.slot h.position h.seedShape (fun r hr _ => ?_) h.rspData
  cases hr
  rfl

/-- A command accepted by a ready engine, whose earlier pulse is over, keeps the invariant. -/
theorem State.Inv.effect {s : State} (h : s.Inv) (hp : s.phase = .idle) (ho : s.owed = none) (hr : s.rsp = none)
    (i : Instr) : (effect i s).Inv := by
  have hf := effect_sameHidden i s
  have hslot : SlotInRange (Machine.effect i s).m := hf.m ▸ h.slot
  have hpos : (Machine.effect i s).i.toNat % 4 = 0 := hf.i ▸ h.position
  have hrsp : (Machine.effect i s).rsp = none := hf.rsp.trans hr
  cases hd : startsDerivation i with
  | false =>
    obtain ⟨_, _, hseedv, hphase, v, howed⟩ := effect_of_no_derivation hd s
    refine .of_idle (hphase.trans hp) hslot hpos ?_ ?_ (by simp [hrsp])
    · rw [hseedv, hf.seed]
      exact h.seedShape
    · intro r hr hc
      rw [howed] at hr
      cases hr
      exact absurd rfl hc
  | true =>
    rcases eq_of_startsDerivation hd with ⟨n, rfl⟩ | rfl
    · exact .of_starting (.inl rfl) hslot hpos rfl ho hrsp
    · exact .of_starting (.inr ⟨rfl, rfl⟩) hslot hpos rfl ho hrsp

theorem State.Inv.exec {i : Instr} {s t : State} (h : s.Inv) (hp : s.phase = .idle) (ho : s.owed = none)
    (hr : s.rsp = none) (he : exec i s = .next t) : t.Inv := by
  rcases exec_cases he with ⟨_, rfl⟩ | ⟨_, rfl⟩
  · exact h.effect hp ho hr i
  · exact h.raise .inv

theorem State.Inv.entropyStep {s : State} (h : s.Inv) (hp : s.phase = .entWait) (ho : s.owed = none) :
    s.entropyStep.Inv := by
  rcases s.entropyStep_cases with ⟨_, he⟩ | ⟨_, _, he⟩ | ⟨_, _, he⟩ <;> rw [he]
  · exact h.tick
  · exact h.tick.raise .ent
  · exact .of_starting (.inl rfl) h.slot h.position (h.seedv_of_running (by simp [hp])) ho rfl

/-- The derivation starts with an odd increment, because every entry of the table is odd (00_scope R6). -/
theorem State.Inv.setupStep {s : State} (h : s.Inv) (hp : s.phase = .setup) (ho : s.owed = none) {table : Table}
    (hodd : ∀ k, (table k).getLsbD 0 = true) : (s.setupStep table).Inv :=
  .of_extracting (.inl rfl) h.position Acc.empty_inv (fun hh => nomatch hh) (hodd _)
    (h.seedv_of_running (by simp [hp])) ho rfl

theorem State.Inv.fetchStep {s : State} (h : s.Inv) (hp : s.phase = .fetch) (ho : s.owed = none) : s.fetchStep.Inv :=
  have hx : s.extracting := .inl hp
  .of_extracting (.inr rfl) rfl (h.digits hx) (h.upper hx) (h.increment hx) (h.seedv_of_running (by simp [hp])) ho rfl

/-- The next nibble lies four bits further on. -/
theorem nextPosition_mod_four {i : BitVec 5} (h : i.toNat % 4 = 0) :
    (if i = 28#5 then i else i + 4#5).toNat % 4 = 0 := by
  split
  · exact h
  · rw [BitVec.toNat_add]
    have h4 : (4#5).toNat = 4 := rfl
    omega

/-- Digits offered to a running half keep its accumulator sound until it is full (41_seed_derivation R126). -/
theorem State.scanned_inv {s : State} (h : s.acc.Inv) (hf : s.scanned.full = false) : s.scanned.Inv := by
  rcases Acc.offer_inv h (nibbleAt s.j s.i.toNat) with ⟨_, hi⟩ | ⟨ht, _⟩
  · exact hi
  · exact absurd (hf.symm.trans ht) (by decide)

theorem State.scanned_distinct {s : State} (h : s.acc.Inv) (hf : s.scanned.full = true) :
    DistinctDigits s.scanned.a := by
  rcases Acc.offer_inv h (nibbleAt s.j s.i.toNat) with ⟨ht, _⟩ | ⟨_, hd⟩
  · exact absurd (hf.symm.trans ht) (by decide)
  · exact hd

theorem State.Inv.scanStep {s : State} (h : s.Inv) (hp : s.phase = .scan) (ho : s.owed = none) : s.scanStep.Inv := by
  have hx : s.extracting := .inr hp
  have hv := h.seedv_of_running (show s.phase ≠ .idle by simp [hp])
  rcases s.scanStep_cases with ⟨hf, hs⟩ | ⟨hf, _, hs⟩ | ⟨hf, hh, hs⟩ <;> rw [hs]
  · refine .of_extracting ?_ (nextPosition_mod_four h.position) (scanned_inv (h.digits hx) hf) (h.upper hx)
      (h.increment hx) hv ho rfl
    by_cases hi : s.i = 28#5 <;> simp [State.extracting, State.keepScanning, hi]
  · exact .of_extracting (.inl rfl) h.position Acc.empty_inv (fun _ => scanned_distinct (h.digits hx) hf)
      (h.increment hx) hv ho rfl
  · have hshape := seedShape_combineHalves (h.upper hx hh) (scanned_distinct (h.digits hx) hf)
    refine .of_idle rfl h.slot h.position (fun _ => hshape) (fun r hr hc => ?_) (fun _ hr => nomatch hr)
    cases hr
    exact absurd rfl hc

/-- Settles O46: each kind of step keeps the invariant. -/
theorem everyStepKeepsTheInvariant : Obligations.EveryStepKeepsTheInvariant := by
  intro s t h hstep
  rcases step_cases hstep with ⟨_, rfl⟩ | ⟨_, r, ho, rfl⟩ | ⟨_, _, _, _, rfl⟩ | ⟨_, ho, hp, _, _, i, _, _, he⟩ |
    ⟨_, _, _, _, _, _, _, rfl⟩ | ⟨_, ho, hp, rfl⟩ | ⟨_, ho, hp, rfl⟩ | ⟨_, ho, hp, rfl⟩ | ⟨_, ho, hp, rfl⟩
  · exact s.tick.resetRegisters_inv
  · exact h.tick.deliver ho
  · exact h.tick
  · exact h.tick.exec hp ho rfl he
  · exact h.tick.raise .ill
  · exact h.entropyStep hp ho
  · exact h.setupStep hp ho sconst_odd
  · exact h.fetchStep hp ho
  · exact h.scanStep hp ho

/-- Settles O47: the state after reset is its own reset. -/
theorem resetMeetsTheInvariant : Obligations.ResetMeetsTheInvariant :=
  State.reset.resetRegisters_inv

/-! ## What a step without a reset can do -/

/-- The engine takes a command at this edge: idle, and nothing owed (10_state R32). -/
theorem State.cmdReady_iff {s : State} : s.cmdReady = true ↔ s.phase = .idle ∧ s.owed = none := by
  simp [State.cmdReady]

/-- What the micro-steps of a derivation leave: the primary generator with its valid bits, `ESRC` and all but one of
the sticky flags; the port moves on by itself (10_state R28, R31). `EENT` is set only with its error owed. -/
structure MicroFrame (s t : State) : Prop where
  x : t.x = s.x
  w : t.w = s.w
  xv : t.xv = s.xv
  wv : t.wv = s.wv
  sv : t.sv = s.sv
  eill : t.eill = s.eill
  einv : t.einv = s.einv
  eent : t.eent = s.eent ∨ t.eent = true ∧ t.owed = some ⟨.ent, 0#64⟩ ∧ s.phase = .entWait
  esrc : t.esrc = s.esrc
  rsp : t.rsp = none
  host : t.host = s.hostAfter
  s : t.s = s.s

theorem State.entropyStep_frame {s : State} (hp : s.phase = .entWait) : MicroFrame s s.entropyStep := by
  rcases s.entropyStep_cases with ⟨_, h⟩ | ⟨_, _, h⟩ | ⟨_, _, h⟩ <;> rw [h]
  · exact ⟨rfl, rfl, rfl, rfl, rfl, rfl, rfl, .inl rfl, rfl, rfl, rfl, rfl⟩
  · exact ⟨rfl, rfl, rfl, rfl, rfl, by simp, by simp, .inr ⟨by simp, rfl, hp⟩, rfl, rfl, rfl, rfl⟩
  · exact ⟨rfl, rfl, rfl, rfl, rfl, rfl, rfl, .inl rfl, rfl, rfl, rfl, rfl⟩

theorem State.setupStep_frame (table : Table) (s : State) : MicroFrame s (s.setupStep table) :=
  ⟨rfl, rfl, rfl, rfl, rfl, rfl, rfl, .inl rfl, rfl, rfl, rfl, rfl⟩

theorem State.fetchStep_frame (s : State) : MicroFrame s s.fetchStep :=
  ⟨rfl, rfl, rfl, rfl, rfl, rfl, rfl, .inl rfl, rfl, rfl, rfl, rfl⟩

theorem State.scanStep_frame (s : State) : MicroFrame s s.scanStep := by
  rcases s.scanStep_cases with ⟨_, h⟩ | ⟨_, _, h⟩ | ⟨_, _, h⟩ <;> rw [h] <;>
    exact ⟨rfl, rfl, rfl, rfl, rfl, rfl, rfl, .inl rfl, rfl, rfl, rfl, rfl⟩

/-- The kinds of step without a reset, with the micro-steps of a derivation known by what they leave. -/
inductive StepKind (s t : State) : Prop
  /-- The owed response is given. -/
  | deliver (r : Response) (howed : s.owed = some r) (ht : t = s.tick.deliver r)
  /-- A ready engine has nothing to do. -/
  | wait (hready : s.cmdReady = true) (ht : t = s.tick)
  /-- A command is accepted and takes effect. -/
  | command (i : Instr) (d : Word) (hready : s.cmdReady = true) (hport : s.presented = some ((encode i).1, d))
      (ht : t = effect i s.tick)
  /-- A command or an illegal byte is accepted and raises an error. -/
  | error (e : Err) (he : e ≠ .ent) (hready : s.cmdReady = true) (ht : t = s.tick.raise e)
  /-- A derivation makes a micro-step. -/
  | micro (hphase : s.phase ≠ .idle) (howed : s.owed = none) (hframe : MicroFrame s t)

theorem stepKind {s t : State} (hr : s.pins.rst = false) (h : step s = .next t) : StepKind s t := by
  rcases step_cases h with ⟨hr', _⟩ | ⟨_, r, ho, ht⟩ | ⟨_, ho, hp, _, ht⟩ | ⟨_, ho, hp, op, d, i, hc, hd, he⟩ |
    ⟨_, ho, hp, op, d, _, _, ht⟩ | ⟨_, ho, hp, rfl⟩ | ⟨_, ho, hp, rfl⟩ | ⟨_, ho, hp, rfl⟩ | ⟨_, ho, hp, rfl⟩
  · exact absurd (hr'.symm.trans hr) (by decide)
  · exact .deliver r ho ht
  · exact .wait (State.cmdReady_iff.2 ⟨hp, ho⟩) ht
  · rcases exec_cases he with ⟨_, ht⟩ | ⟨_, ht⟩
    · exact .command i d (State.cmdReady_iff.2 ⟨hp, ho⟩) (byte_of_decode hd ▸ hc) ht
    · exact .error .inv (by decide) (State.cmdReady_iff.2 ⟨hp, ho⟩) ht
  · exact .error .ill (by decide) (State.cmdReady_iff.2 ⟨hp, ho⟩) ht
  · exact .micro (by simp [hp]) ho (State.entropyStep_frame hp)
  · exact .micro (by simp [hp]) ho (s.setupStep_frame _)
  · exact .micro (by simp [hp]) ho s.fetchStep_frame
  · exact .micro (by simp [hp]) ho s.scanStep_frame

/-! ## The response port -/

/-- The pulse of a response is seen only after a step that gives an owed one (10_state R32). -/
theorem rsp_eq_none_of_step {s t : State} (hs : step s = .next t) (h : s.owed = none ∨ s.pins.rst = true) :
    t.rsp = none := by
  cases hr : s.pins.rst with
  | true =>
    rcases step_cases hs with ⟨_, rfl⟩ | h' | h' | h' | h' | h' | h' | h' | h'
    · rfl
    all_goals exact absurd (hr.symm.trans h'.1) (by decide)
  | false =>
    cases stepKind hr hs with
    | deliver r howed _ => simp [hr, howed] at h
    | wait _ ht => rw [ht]; rfl
    | command i _ _ _ ht => rw [ht]; exact (effect_sameHidden i _).rsp
    | error e _ _ ht => rw [ht]; rfl
    | micro _ _ hframe => exact hframe.rsp

/-- Settles O9: an owed response is delivered, and without one the port is silent after the step. -/
theorem owedResponseIsGivenForOneStep : Obligations.OwedResponseIsGivenForOneStep := by
  refine ⟨fun s r hr ho => ⟨s.tick.deliver r, stepWith_deliver _ hr ho, rfl, rfl, rfl, rfl, fun hp => ?_⟩,
    fun s t hs h => ?_⟩
  · simp [State.busy, State.cmdReady, hp]
  · simp [State.rspValid, State.rspCode, State.rspData, rsp_eq_none_of_step hs h]

/-! ## Sticky flags -/

theorem effect_flags {i : Instr} (h : i ≠ .clrerr) (s : State) :
    (effect i s).eill = s.eill ∧ (effect i s).einv = s.einv ∧ (effect i s).eent = s.eent := by
  cases i
  case clrerr => exact absurd rfl h
  all_goals exact ⟨rfl, rfl, rfl⟩

/-- How a step without a reset changes the sticky flags: not at all, by `CLRERR`, by one of the errors of an accepted
byte, or by the failure of the entropy source (10_state R27, 60_exceptions R171). -/
theorem flags_cases {s t : State} (hr : s.pins.rst = false) (h : step s = .next t) :
    (t.eill = s.eill ∧ t.einv = s.einv ∧ t.eent = s.eent) ∨
    (t.eill = false ∧ t.einv = false ∧ t.eent = false ∧ s.cmdReady = true ∧ ∃ d, s.presented = some (0x60#8, d)) ∨
    (t.eill = true ∧ t.einv = s.einv ∧ t.eent = s.eent ∧ t.owed = some ⟨.ill, 0#64⟩) ∨
    (t.eill = s.eill ∧ t.einv = true ∧ t.eent = s.eent ∧ t.owed = some ⟨.inv, 0#64⟩) ∨
    (t.eill = s.eill ∧ t.einv = s.einv ∧ t.eent = true ∧ t.owed = some ⟨.ent, 0#64⟩ ∧ s.phase = .entWait) := by
  cases stepKind hr h with
  | deliver r _ ht => rw [ht]; exact .inl ⟨rfl, rfl, rfl⟩
  | wait _ ht => rw [ht]; exact .inl ⟨rfl, rfl, rfl⟩
  | command i d hready hport ht =>
    rw [ht]
    by_cases hi : i = .clrerr
    · subst hi
      exact .inr (.inl ⟨rfl, rfl, rfl, hready, d, hport⟩)
    · exact .inl (effect_flags hi s.tick)
  | error e he _ ht =>
    rw [ht]
    cases e with
    | ill => exact .inr (.inr (.inl ⟨by simp, by simp, by simp, rfl⟩))
    | inv => exact .inr (.inr (.inr (.inl ⟨by simp, by simp, by simp, rfl⟩)))
    | ent => exact absurd rfl he
  | micro _ _ hframe =>
    rcases hframe.eent with heent | ⟨heent, howed, hp⟩
    · exact .inl ⟨hframe.eill, hframe.einv, heent⟩
    · exact .inr (.inr (.inr (.inr ⟨hframe.eill, hframe.einv, heent, howed, hp⟩)))

/-- Settles O26: in each way a step can change the flags, the clause that speaks of it holds and the others are
empty. -/
theorem stickyFlagsChangeOnlyByErrorsAndClrerr : Obligations.StickyFlagsChangeOnlyByErrorsAndClrerr := by
  intro s t hr h
  rcases flags_cases hr h with ⟨h1, h2, h3⟩ | ⟨h1, h2, h3, hc⟩ | ⟨h1, h2, h3, ho⟩ | ⟨h1, h2, h3, ho⟩ |
    ⟨h1, h2, h3, ho, hp⟩ <;> simp only [h1, h2, h3]
  · simp +contextual
  · exact ⟨fun _ => hc, by simp, by simp, by simp⟩
  · simp [ho]
  · simp [ho]
  · simp [ho, hp]

/-- The state with other sticky flags. -/
def State.withFlags (f g h : Bool) (s : State) : State := { s with eill := f, einv := g, eent := h }

/-- No command needs a sticky flag (60_exceptions R179). -/
theorem needs_withFlags (i : Instr) (s : State) (f g h : Bool) : needs i (s.withFlags f g h) = needs i s := by
  cases i <;> rfl

theorem effect_withFlags {i : Instr} (hi : i ≠ .rdstat) (hc : i ≠ .clrerr) (s : State) (f g h : Bool) :
    effect i (s.withFlags f g h) = (effect i s).withFlags f g h := by
  cases i
  case rdstat => exact absurd rfl hi
  case clrerr => exact absurd rfl hc
  all_goals rfl

/-- Settles O27: with other flags a command needs the same; its effect leaves them, clears them or sets `EINV`. -/
theorem stickyFlagsInfluenceNothing : Obligations.StickyFlagsInfluenceNothing := by
  intro i s t f g h hi he
  have hn := needs_withFlags i s f g h
  rcases exec_cases he with ⟨hs, rfl⟩ | ⟨hs, rfl⟩
  · refine ⟨effect i (s.withFlags f g h), exec_of_needs (hn.trans hs), ?_⟩
    by_cases hc : i = .clrerr
    · subst hc
      exact ⟨rfl, .inl rfl, .inl rfl, .inl rfl⟩
    · rw [effect_withFlags hi hc]
      exact ⟨rfl, .inr rfl, .inr rfl, .inr rfl⟩
  · refine ⟨(s.withFlags f g h).raise .inv, exec_of_missing (hn.trans hs), rfl, .inr ?_, .inl ?_, .inr ?_⟩ <;>
      simp [State.withFlags]

/-! ## Valid bits -/

/-- The commands that set `XV` (10_state R24). -/
def setsXv : Instr → Bool
  | .ldx _ => true
  | .init _ => true
  | .inits => true
  | _ => false

/-- The commands that set `WV`. -/
def setsWv : Instr → Bool
  | .ldw _ => true
  | .init _ => true
  | .inits => true
  | _ => false

/-- The commands that set `SV`. -/
def setsSv : Instr → Bool
  | .lds _ => true
  | .init _ => true
  | .inits => true
  | _ => false

theorem effect_validBits (i : Instr) (s : State) :
    (effect i s).xv = (setsXv i || s.xv) ∧ (effect i s).wv = (setsWv i || s.wv) ∧
      (effect i s).sv = (setsSv i || s.sv) := by
  cases i <;> exact ⟨rfl, rfl, rfl⟩

theorem byte_of_setsXv {i : Instr} (h : setsXv i = true) :
    (encode i).1 = 0x20#8 ∨ (encode i).1 = 0x23#8 ∨ (encode i).1 = 0x50#8 := by
  cases i <;> cases h <;> simp [encode, commandByte]

theorem byte_of_setsWv {i : Instr} (h : setsWv i = true) :
    (encode i).1 = 0x21#8 ∨ (encode i).1 = 0x23#8 ∨ (encode i).1 = 0x50#8 := by
  cases i <;> cases h <;> simp [encode, commandByte]

theorem byte_of_setsSv {i : Instr} (h : setsSv i = true) :
    (encode i).1 = 0x22#8 ∨ (encode i).1 = 0x23#8 ∨ (encode i).1 = 0x50#8 := by
  cases i <;> cases h <;> simp [encode, commandByte]

/-- A step without a reset leaves the valid bits, or it accepts a command, which can only set them. -/
theorem validBits_cases {s t : State} (hr : s.pins.rst = false) (h : step s = .next t) :
    (t.xv = s.xv ∧ t.wv = s.wv ∧ t.sv = s.sv) ∨
    (s.cmdReady = true ∧ ∃ i d, s.presented = some ((encode i).1, d) ∧
      t.xv = (setsXv i || s.xv) ∧ t.wv = (setsWv i || s.wv) ∧ t.sv = (setsSv i || s.sv)) := by
  cases stepKind hr h with
  | deliver r _ ht => rw [ht]; exact .inl ⟨rfl, rfl, rfl⟩
  | wait _ ht => rw [ht]; exact .inl ⟨rfl, rfl, rfl⟩
  | command i d hready hport ht => rw [ht]; exact .inr ⟨hready, i, d, hport, effect_validBits i s.tick⟩
  | error e _ _ ht => rw [ht]; exact .inl ⟨rfl, rfl, rfl⟩
  | micro _ _ hframe => exact .inl ⟨hframe.xv, hframe.wv, hframe.sv⟩

/-- Settles O28: a bit that is 1 stays, and one that becomes 1 was set by a command of its list. -/
theorem validBitsAreClearedOnlyByReset : Obligations.ValidBitsAreClearedOnlyByReset := by
  intro s t hr h
  rcases validBits_cases hr h with ⟨hx, hw, hs⟩ | ⟨hready, i, d, hport, hx, hw, hs⟩ <;> rw [hx, hw, hs]
  · simp +contextual
  · refine ⟨by simp +contextual, by simp +contextual, by simp +contextual, fun h0 h1 => ?_, fun h0 h1 => ?_,
      fun h0 h1 => ?_⟩ <;> rw [h0, Bool.or_false] at h1
    · exact ⟨hready, _, d, hport, byte_of_setsXv h1⟩
    · exact ⟨hready, _, d, hport, byte_of_setsWv h1⟩
    · exact ⟨hready, _, d, hport, byte_of_setsSv h1⟩

/-! ## Running derivations -/

/-- Settles O31: where `PHASE` is not `IDLE` a step gives an owed response or makes a micro-step. -/
theorem derivationLeavesThePrimaryGenerator : Obligations.DerivationLeavesThePrimaryGenerator := by
  intro s t hr hp h
  have hbusy : s.cmdReady = false := by simp [State.cmdReady, hp]
  have hheld : ∀ op d rest, s.host = .issue op d :: rest → s.hostAfter = s.host := fun op d rest hh =>
    (State.hostAfter_of_busy hbusy hh).trans hh.symm
  have hb : s.busy = true := by simp [State.busy, hbusy]
  cases stepKind hr h with
  | deliver r _ ht => rw [ht]; exact ⟨rfl, rfl, rfl, rfl, rfl, rfl, rfl, rfl, rfl, hb, hheld⟩
  | wait hready _ => exact absurd (hbusy.symm.trans hready) (by decide)
  | command _ _ hready _ _ => exact absurd (hbusy.symm.trans hready) (by decide)
  | error _ _ hready _ => exact absurd (hbusy.symm.trans hready) (by decide)
  | micro _ _ hf =>
    refine ⟨hf.x, hf.w, hf.s, hf.xv, hf.wv, hf.sv, hf.eill, hf.einv, hf.esrc, hb, fun op d rest hh => ?_⟩
    exact hf.host.trans (hheld op d rest hh)

/-! ## Accepting a command -/

/-- A ready engine runs the command it is presented (41_seed_derivation R141). -/
theorem step_of_presented {s : State} {op : Byte} {d : Word} {i : Instr} (hr : s.pins.rst = false)
    (hready : s.cmdReady = true) (hc : s.presented = some (op, d)) (hd : decode op d = .command i) :
    step s = exec i s.tick := by
  obtain ⟨hp, ho⟩ := State.cmdReady_iff.1 hready
  rw [step_eq, stepWith_idle _ hr ho hp]
  simp only [State.accept, hc, hd]

/-- Settles O5: the tick takes the accepted command from the port. -/
theorem stepRunsTheDecodedCommand : Obligations.StepRunsTheDecodedCommand := by
  intro s op d rest i hr hp ho hh hd
  have hready : s.cmdReady = true := State.cmdReady_iff.2 ⟨hp, ho⟩
  have hc : s.presented = some (op, d) := by simp [State.presented, hh]
  rw [step_of_presented hr hready hc hd, State.tick, State.hostAfter_of_ready hready hh]

/-! ## Reset -/

theorem stepWith_reset (table : Table) {s : State} (hr : s.pins.rst = true) :
    stepWith table s = .next s.tick.resetRegisters := by
  simp [stepWith, hr]

/-- Settles O11: the reset edge is `resetRegisters` on the ticked state, which reads no register of it. -/
theorem resetEdgeClearsEveryRegister : Obligations.ResetEdgeClearsEveryRegister := fun s hr =>
  ⟨s.tick.resetRegisters, stepWith_reset _ hr, rfl, rfl, rfl, rfl, rfl, show State.reset.status = 0#64 from rfl⟩

/-- Settles O12: no command that reads one of the zeros finds its valid bit (60_exceptions R174). -/
theorem resetValues : Obligations.ResetValues := by
  refine ⟨rfl, rfl, rfl, rfl, rfl, rfl, rfl, rfl, rfl, rfl, rfl, rfl, rfl, rfl, rfl, rfl, rfl, rfl, rfl, rfl, rfl, rfl,
    rfl, rfl, rfl, rfl, rfl, rfl, rfl, rfl, rfl, fun i hi => ?_⟩
  have hneeds : needs i State.reset = false := by
    rcases hi with rfl | rfl | rfl | rfl | rfl | rfl <;> rfl
  exact exec_of_missing hneeds

end Sys2Proof.Machine
end

section
/-! PROOFS. The register reads and the table: what a read leaves unchanged (20_memory R55, 42_system R160 to R164). -/

namespace Sys2Proof.Machine

/-- The commands that answer with a register (42_system R160 to R164). -/
def readsRegister : Instr → Bool
  | .rdx => true
  | .rdw => true
  | .rds => true
  | .rdseed => true
  | .rdstat => true
  | _ => false

/-- The effect of a read is its answer alone. -/
theorem effect_of_readsRegister {i : Instr} (h : readsRegister i = true) (s : State) :
    ∃ v, effect i s = s.respond .ok v := by
  cases i <;> cases h <;> exact ⟨_, rfl⟩

/-- On an idle engine the error `INV` sets its flag and owes its answer, and that is all (60_exceptions R172). -/
theorem State.raise_inv_of_idle {s : State} (hp : s.phase = .idle) :
    s.raise .inv = { s with einv := true, owed := some ⟨.inv, 0#64⟩ } := by
  cases s
  cases hp
  simp [State.raise, Err.code]

/-- Settles O30: a read whose valid bit is there only answers, and one whose valid bit is missing raises `INV`. -/
theorem readsChangeNoRegister : Obligations.ReadsChangeNoRegister := by
  intro i s t hi hp h
  have hread : readsRegister i = true := by
    rcases hi with rfl | rfl | rfl | rfl | rfl <;> rfl
  rcases exec_cases h with ⟨_, rfl⟩ | ⟨_, rfl⟩
  · obtain ⟨v, hv⟩ := effect_of_readsRegister hread s
    rw [hv]
    exact ⟨rfl, .inl rfl, _, rfl, .inl ⟨rfl, rfl⟩⟩
  · rw [State.raise_inv_of_idle hp]
    exact ⟨rfl, .inr rfl, _, rfl, .inr ⟨rfl, rfl, rfl⟩⟩

end Sys2Proof.Machine
end

section
/-! PROOFS. The decoder and the encoder: decoding reads the byte alone and carries the operand along (30_encoding R70 to
R74, R80). -/

namespace Sys2Proof.Machine

/-! ## The commands and their operands -/

/-- The command with another operand where its format is `D`; a format `Z` command has none (30_encoding R71). -/
def withOperand (d : Word) : Instr → Instr
  | .ldx _ => .ldx d
  | .ldw _ => .ldw d
  | .lds _ => .lds d
  | .init _ => .init d
  | .derive _ => .derive d
  | i => i

/-- A command's byte selects it, with the operand that is presented beside the byte (30_encoding R71, R80). -/
theorem decode_encode_fst (i : Instr) (d : Word) : decode (encode i).1 d = .command (withOperand d i) := by
  cases i <;> rfl

theorem withOperand_encode (i : Instr) : withOperand (encode i).2 i = i := by
  cases i <;> rfl

/-- A command is the one selected beside an operand when the operand is its own, which format `Z` does not ask. -/
theorem withOperand_eq_self_iff (i : Instr) (d : Word) :
    withOperand d i = i ↔ (formatOf i = .data → operandOf i = some d) := by
  cases i <;> simp [withOperand, formatOf, operandOf, eq_comm]

theorem withOperand_of_zero {i : Instr} (h : formatOf i = .zero) (d : Word) : withOperand d i = i :=
  (withOperand_eq_self_iff i d).2 fun hd => absurd (h.symm.trans hd) (by decide)

theorem formatOf_eq_zero_iff (i : Instr) : formatOf i = .zero ↔ operandOf i = none := by
  cases i <;> simp [formatOf, operandOf]

/-! ## The bytes -/

/-- The two fields of a byte put together again are the byte (30_encoding R70). -/
theorem commandByte_fields (b : Byte) : commandByte (opcField b) (selField b) = b := by
  rw [commandByte, opcField, selField, BitVec.extractLsb'_append_extractLsb'_eq_extractLsb' (by rfl)]
  exact BitVec.extractLsb'_eq_self

theorem decode_eq_command_iff (b : Byte) (d : Word) (i : Instr) :
    decode b d = .command i ↔ b = (encode i).1 ∧ withOperand d i = i := by
  constructor
  · intro h
    obtain rfl := byte_of_decode h
    exact ⟨rfl, Decoded.command.inj ((decode_encode_fst i d).symm.trans h)⟩
  · rintro ⟨rfl, hd⟩
    rw [decode_encode_fst, hd]

/-- The bytes that select no command are those that are not among the fourteen (30_encoding R74). -/
theorem decode_eq_illegal_iff (b : Byte) (d : Word) : decode b d = .illegal ↔ b ∉ legalBytes := by
  by_cases hb : b ∈ legalBytes
  · have hb' := hb
    simp only [legalBytes, List.mem_cons, List.not_mem_nil, or_false] at hb'
    rcases hb' with rfl | rfl | rfl | rfl | rfl | rfl | rfl | rfl | rfl | rfl | rfl | rfl | rfl | rfl <;>
      simp [decode, hb]
  · have hb' := hb
    simp only [legalBytes, List.mem_cons, List.not_mem_nil, or_false, not_or] at hb'
    simp [decode, hb, hb']

/-- The gaps between the fourteen command bytes (30_encoding R74). -/
theorem notMem_legalBytes_iff (b : Byte) :
    b ∉ legalBytes ↔
      b.toNat ≤ 0x0F ∨ (0x11 ≤ b.toNat ∧ b.toNat ≤ 0x1F) ∨ (0x24 ≤ b.toNat ∧ b.toNat ≤ 0x2F) ∨
      (0x35 ≤ b.toNat ∧ b.toNat ≤ 0x3F) ∨ (0x42 ≤ b.toNat ∧ b.toNat ≤ 0x4F) ∨
      (0x51 ≤ b.toNat ∧ b.toNat ≤ 0x5F) ∨ (0x61 ≤ b.toNat ∧ b.toNat ≤ 0x6F) ∨ 0x70 ≤ b.toNat := by
  simp only [legalBytes, List.mem_cons, List.not_mem_nil, or_false, ← BitVec.toNat_inj, BitVec.toNat_ofNat]
  omega

/-- 256 bytes without the fourteen that select a command. -/
theorem countP_notMem_legalBytes :
    ((List.range 256).countP fun n => decide (BitVec.ofNat 8 n ∉ legalBytes)) = 242 := by
  decide +kernel

/-! ## The statements of 30_encoding -/

/-- Settles O2: the byte selects the command and the operand beside it is carried along. -/
theorem decodeEncodeAgree : Obligations.DecodeEncodeAgree := by
  refine ⟨fun i => ?_, fun b d i => ?_, formatOf_eq_zero_iff, fun i => commandByte_fields _⟩
  · rw [decode_encode_fst, withOperand_encode]
  · rw [decode_eq_command_iff, withOperand_eq_self_iff]

/-- Settles O3: the illegal bytes are the gaps between the fourteen, whatever the operand. -/
theorem illegalBytesAreTheListedRanges : Obligations.IllegalBytesAreTheListedRanges := by
  intro d
  simp only [decode_eq_illegal_iff]
  exact ⟨notMem_legalBytes_iff, countP_notMem_legalBytes⟩

/-- Settles O1: a legal byte selects its command, and no other byte does. -/
theorem opcodeMapDecodes : Obligations.OpcodeMapDecodes := by
  intro d
  refine ⟨rfl, rfl, rfl, rfl, rfl, rfl, rfl, rfl, rfl, rfl, rfl, rfl, rfl, rfl, fun b hb => ?_⟩
  exact (decode_eq_illegal_iff b d).2 hb

/-! ## The operand that is ignored -/

/-- A byte that selects no format `D` command decodes alike beside every operand (30_encoding R71). -/
theorem decode_eq_of_ignored {op : Byte} {d : Word} (h : ∀ i, decode op d = .command i → formatOf i = .zero)
    (d' : Word) : decode op d' = decode op d := by
  cases hd : decode op d with
  | command i => exact (decode_eq_command_iff op d' i).2 ⟨byte_of_decode hd, withOperand_of_zero (h i hd) d'⟩
  | illegal => exact (decode_eq_illegal_iff op d').2 ((decode_eq_illegal_iff op d).1 hd)

/-- The edge at which a ready engine takes a presented command from the port keeps nothing of it (10_state R32). -/
theorem State.tick_of_ready {s : State} (hready : s.cmdReady = true) (op : Byte) (d : Word) (rest : List HostMove) :
    State.tick { s with host := .issue op d :: rest } = { s.tick with host := rest } := by
  rw [State.tick, State.hostAfter_of_ready (s := { s with host := .issue op d :: rest }) hready rfl]
  rfl

/-- At a step a ready engine is reset or looks at its port (41_seed_derivation R141, 60_exceptions R176). -/
theorem step_of_cmdReady {s : State} (hready : s.cmdReady = true) :
    step s = if s.pins.rst then .next s.tick.resetRegisters else s.accept := by
  obtain ⟨hp, ho⟩ := State.cmdReady_iff.1 hready
  cases hr : s.pins.rst with
  | true => exact stepWith_reset _ hr
  | false => exact stepWith_idle _ hr ho hp

/-- The operand reaches what a ready engine accepts only through what is decoded. -/
theorem State.accept_congr_of_decode {s : State} (hready : s.cmdReady = true) {op : Byte} {d d' : Word}
    (hd : decode op d = decode op d') (rest : List HostMove) :
    State.accept { s with host := .issue op d :: rest } = State.accept { s with host := .issue op d' :: rest } := by
  simp only [State.accept, State.presented, State.tick_of_ready hready, hd]

/-- Settles O4: the tick takes the operand from the port, and what is accepted does not depend on it. -/
theorem ignoredOperandHasNoEffect : Obligations.IgnoredOperandHasNoEffect := by
  intro s op d d' rest hready h
  rw [step_of_cmdReady (s := { s with host := .issue op d :: rest }) hready,
    step_of_cmdReady (s := { s with host := .issue op d' :: rest }) hready, State.tick_of_ready hready,
    State.tick_of_ready hready, State.accept_congr_of_decode hready (decode_eq_of_ignored h d').symm]

end Sys2Proof.Machine
end

section
/-! PROOFS. The core generator: the step function in natural numbers, the commands that write the generator, and who may
change it (40_core_generator). -/

namespace Sys2Proof.Machine

/-! ## The step function -/

theorem mswsNext_x_toNat (g : Gen) :
    (mswsNext g).x.toNat = (mswsSum g).toNat % 2 ^ 32 * 2 ^ 32 + (mswsSum g).toNat / 2 ^ 32 :=
  rot32_toNat (mswsSum g)

theorem mswsOut_toNat (g : Gen) : (mswsOut g).toNat = (mswsSum g).toNat / 2 ^ 32 := by
  rw [mswsOut_eq, highHalf_toNat]

/-- Settles O14: the output is read once as the low half of the new `X` and once as the upper half of the sum. -/
theorem stepFunctionArithmetic : Obligations.StepFunctionArithmetic := by
  intro g sum
  have hsum : (mswsSum g).toNat = sum := mswsSum_toNat g
  have hlow : (mswsOut g).toNat = (mswsNext g).x.toNat % 2 ^ 32 := lowHalf_toNat _
  refine ⟨?_, ?_, mswsNext_s g, hlow, ?_⟩
  · rw [mswsNext_x_toNat, hsum]
  · rw [mswsNext_w, BitVec.toNat_add]
  · rw [mswsOut_toNat, hsum]

/-- Settles O15, by evaluating the step function on the six states. -/
theorem stepFunctionCornerCases : Obligations.StepFunctionCornerCases := by
  unfold Obligations.StepFunctionCornerCases
  decide

/-- Settles O16, by induction on the number of steps. -/
theorem weylAccumulatorAdvancesByTheIncrement : Obligations.WeylAccumulatorAdvancesByTheIncrement := by
  intro k g
  induction k with
  | zero => simp
  | succ k ih =>
    obtain ⟨hw, hs⟩ := ih
    rw [Function.iterate_succ_apply', mswsNext_w, mswsNext_s, hw, hs]
    refine ⟨?_, rfl⟩
    rw [BitVec.ofNat_add, BitVec.add_mul, BitVec.one_mul, BitVec.add_assoc]

/-! ## The commands of the generator -/

theorem getLsbD_zext64 (v : Word32) (b : Nat) : (zext64 v).getLsbD b = v.getLsbD b := by
  by_cases hb : b < 64
  · simp [zext64, hb]
  · rw [BitVec.getLsbD_of_ge _ _ (by omega), BitVec.getLsbD_of_ge _ _ (by omega)]

/-- Settles O17: the two words and the response are those of the step function on the primary generator. -/
theorem stepAdvancesTheGenerator : Obligations.StepAdvancesTheGenerator := by
  intro s hx hw hs
  have hneeds : needs .step s = true := by simp [needs, State.generatorValid, hx, hw, hs]
  obtain ⟨hx3, hw1, _, _, hout⟩ := stepFunctionArithmetic s.primary
  refine ⟨(mswsNext s.primary).x, (mswsNext s.primary).w, zext64 (mswsOut s.primary), exec_of_needs hneeds, hx3, hw1,
    (zext64_toNat _).trans hout, fun b hb => ?_, fun b hb => ?_⟩ <;> rw [getLsbD_zext64]
  · rw [mswsOut, getLsbD_lowHalf, decide_eq_true hb, Bool.true_and]
  · exact BitVec.getLsbD_of_ge _ _ hb

/-- Settles O18: the loads need no valid bit. -/
theorem loadsWriteOneWord : Obligations.LoadsWriteOneWord := fun _ v =>
  ⟨exec_of_needs (i := .ldx v) rfl, exec_of_needs (i := .ldw v) rfl, exec_of_needs (i := .lds v) rfl⟩

/-- Settles O19: `INIT` needs no valid bit. -/
theorem initConstructsTheGenerator : Obligations.InitConstructsTheGenerator := fun _ v =>
  exec_of_needs (i := .init v) rfl

theorem State.raise_inv_eq (s : State) :
    s.raise .inv = { s with einv := true, phase := .idle, owed := some ⟨.inv, 0#64⟩ } := by
  simp [State.raise, Err.code]

/-- Settles O20: `INITS` needs the valid bit of `SEED`, and a seed that can be read has the shape of a derived one. -/
theorem initsConstructsFromTheSeed : Obligations.InitsConstructsFromTheSeed := by
  refine fun s => ⟨fun hv => exec_of_needs (i := .inits) hv, fun hinv hv => ?_, fun hv => ?_⟩
  · obtain ⟨hodd, _, _⟩ := hinv.seedShape hv
    exact hodd
  · rw [exec_of_missing (i := .inits) hv, State.raise_inv_eq]

/-! ## The writers of the generator and of the seed -/

theorem effect_x_of_not_writer {i : Instr} (hi : i ≠ .step) (h : setsXv i = false) (s : State) :
    (effect i s).x = s.x := by
  cases i
  case step => exact absurd rfl hi
  all_goals cases h <;> rfl

theorem effect_w_of_not_writer {i : Instr} (hi : i ≠ .step) (h : setsWv i = false) (s : State) :
    (effect i s).w = s.w := by
  cases i
  case step => exact absurd rfl hi
  all_goals cases h <;> rfl

/-- `STEP` keeps the increment, so the writers of `S` are those of its valid bit (10_state R23). -/
theorem effect_s_of_not_writer {i : Instr} (h : setsSv i = false) (s : State) : (effect i s).s = s.s := by
  cases i <;> cases h <;> rfl

/-- The writers of `X` are `STEP` and the commands that set `XV` (10_state R21). -/
theorem byte_of_x_changed {i : Instr} {s : State} (h : (effect i s).x ≠ s.x) :
    (encode i).1 = 0x10#8 ∨ (encode i).1 = 0x20#8 ∨ (encode i).1 = 0x23#8 ∨ (encode i).1 = 0x50#8 := by
  by_cases hi : i = .step
  · exact .inl (hi ▸ rfl)
  · cases hx : setsXv i with
    | true => exact .inr (byte_of_setsXv hx)
    | false => exact absurd (effect_x_of_not_writer hi hx s) h

/-- The writers of `W` are `STEP` and the commands that set `WV` (10_state R22). -/
theorem byte_of_w_changed {i : Instr} {s : State} (h : (effect i s).w ≠ s.w) :
    (encode i).1 = 0x10#8 ∨ (encode i).1 = 0x21#8 ∨ (encode i).1 = 0x23#8 ∨ (encode i).1 = 0x50#8 := by
  by_cases hi : i = .step
  · exact .inl (hi ▸ rfl)
  · cases hw : setsWv i with
    | true => exact .inr (byte_of_setsWv hw)
    | false => exact absurd (effect_w_of_not_writer hi hw s) h

theorem byte_of_s_changed {i : Instr} {s : State} (h : (effect i s).s ≠ s.s) :
    (encode i).1 = 0x22#8 ∨ (encode i).1 = 0x23#8 ∨ (encode i).1 = 0x50#8 := by
  cases hs : setsSv i with
  | true => exact byte_of_setsSv hs
  | false => exact absurd (effect_s_of_not_writer hs s) h

/-- A step without a reset leaves the primary generator, or a command it accepts takes effect (40_core_generator R105). -/
theorem generator_cases {s t : State} (hr : s.pins.rst = false) (h : step s = .next t) :
    (t.x = s.x ∧ t.w = s.w ∧ t.s = s.s) ∨
    (s.cmdReady = true ∧ ∃ i d, s.presented = some ((encode i).1, d) ∧ t = effect i s.tick) := by
  cases stepKind hr h with
  | deliver r _ ht => rw [ht]; exact .inl ⟨rfl, rfl, rfl⟩
  | wait _ ht => rw [ht]; exact .inl ⟨rfl, rfl, rfl⟩
  | command i d hready hport ht => exact .inr ⟨hready, i, d, hport, ht⟩
  | error e _ _ ht => rw [ht]; exact .inl ⟨rfl, rfl, rfl⟩
  | micro _ _ hframe => exact .inl ⟨hframe.x, hframe.w, hframe.s⟩

/-- A step without a reset leaves `SEED`, or it completes the lower half of a derivation (10_state R25,
41_seed_derivation R145). -/
theorem seed_cases {s t : State} (hr : s.pins.rst = false) (h : step s = .next t) :
    t.seed = s.seed ∨ (s.phase = .scan ∧ s.half = true ∧ s.owed = none ∧ t = s.finishLower) := by
  rcases step_cases h with ⟨hr', _⟩ | ⟨_, r, _, rfl⟩ | ⟨_, _, _, _, rfl⟩ | ⟨_, _, _, _, _, i, _, _, he⟩ |
    ⟨_, _, _, _, _, _, _, rfl⟩ | ⟨_, _, _, rfl⟩ | ⟨_, _, _, rfl⟩ | ⟨_, _, _, rfl⟩ | ⟨_, ho, hp, rfl⟩
  case inl => exact absurd (hr'.symm.trans hr) (by decide)
  case inr.inr.inr.inl => exact .inl (exec_sameHidden he).seed
  case inr.inr.inr.inr.inr.inl =>
    rcases s.entropyStep_cases with ⟨_, ht⟩ | ⟨_, _, ht⟩ | ⟨_, _, ht⟩ <;> rw [ht] <;> exact .inl rfl
  case inr.inr.inr.inr.inr.inr.inr.inr =>
    rcases s.scanStep_cases with ⟨_, ht⟩ | ⟨_, _, ht⟩ | ⟨_, hh, ht⟩ <;> rw [ht]
    · exact .inl rfl
    · exact .inl rfl
    · exact .inr ⟨hp, hh, ho, rfl⟩
  all_goals exact .inl rfl

/-- Settles O21: only an accepted command changes a word of the generator, and only the end of a derivation `SEED`. -/
theorem generatorChangesOnlyByItsWriters : Obligations.GeneratorChangesOnlyByItsWriters := by
  intro s t hr h
  have hseed : t.seed ≠ s.seed →
      s.phase = .scan ∧ s.half = true ∧ s.owed = none ∧ t.seedv = true ∧ t.phase = .idle := by
    intro hne
    rcases seed_cases hr h with heq | ⟨hp, hh, ho, rfl⟩
    · exact absurd heq hne
    · exact ⟨hp, hh, ho, rfl, rfl⟩
  rcases generator_cases hr h with ⟨hx, hw, hs⟩ | ⟨hready, i, d, hport, rfl⟩
  · exact ⟨absurd hs, absurd hx, absurd hw, hseed⟩
  · exact ⟨fun hne => ⟨hready, _, d, hport, byte_of_s_changed hne⟩,
      fun hne => ⟨hready, _, d, hport, byte_of_x_changed hne⟩,
      fun hne => ⟨hready, _, d, hport, byte_of_w_changed hne⟩, hseed⟩

end Sys2Proof.Machine
end

section
/-! PROOFS. Seed derivation: the arithmetic of an index, the function `derive_seed`, the micro-steps, the agreement of
the two, and the runs of a derivation (41_seed_derivation). -/

namespace Sys2Proof.Machine

/-! ## The arithmetic of an index -/

/-- Settles O36: every part of the split is a quotient or a remainder of the normal form, which is at most 2^63. -/
theorem decimalSplitIsExact : Obligations.DecimalSplitIsExact := by
  intro n n1
  have hn1 : (normalise n).toNat = n1 := normalise_toNat n
  have hle : n1 ≤ 2 ^ 63 := by
    have := n.isLt
    simp only [n1]
    split <;> omega
  rw [indexQuotient_toNat, indexRemainder_toNat, reducedQuotient_toNat, tableIndex_val, hn1]
  refine ⟨rfl, ?_, ?_, ?_, rfl, rfl, ?_, fun hlt => ⟨?_, ?_⟩⟩ <;> omega

/-- The throwaway generator depends on the index through its normal form alone (41_seed_derivation R122 to R125). -/
theorem initialGen_congr (table : Table) {m n : Word} (h : normalise m = normalise n) :
    initialGen table m = initialGen table n := by
  simp only [initialGen, initialX, tableConst, tableIndex, reducedQuotient, indexRemainder, indexQuotient, h]

/-- Settles O44: in natural numbers, and because an index and its negation have one normal form. -/
theorem indexAndNegationGiveOneSeed : Obligations.IndexAndNegationGiveOneSeed := by
  have hself : ∀ n : Word, n.toNat ≤ 2 ^ 63 → normalise n = n := fun n hn => by
    apply BitVec.eq_of_toNat_eq
    rw [normalise_toNat]
    split <;> omega
  refine ⟨fun n hn => hself n (by omega), fun n hn => ?_, fun n hn => ?_, normalise_neg, fun table budget n => ?_⟩
  · rw [normalise_toNat, if_neg (by omega)]
    omega
  · rw [indexQuotient_toNat, indexRemainder_toNat, tableIndex_val, hself n (by omega), hn]
    exact ⟨rfl, rfl, rfl, rfl⟩
  · rw [deriveSeed, deriveSeed, initialGen_congr table (normalise_neg n)]

/-- `x0` in natural numbers (41_seed_derivation R125). -/
theorem initialX_toNat (table : Table) (n : Word) :
    (initialX table n).toNat = ((normalise n).toNat % 100000000 * (tableConst table n).toNat +
      100000000 * ((normalise n).toNat / 100000000 / 30 * (tableConst table n).toNat)) % 2 ^ 64 := by
  rw [initialX, toNat_mul_add_mul_mul, indexRemainder_toNat, reducedQuotient_toNat, decimalBase_toNat]

/-! ## The function `derive_seed` -/

/-- A derivation ends within a budget exactly if its two halves do, one after the other (41_seed_derivation R120). -/
theorem deriveSeed_eq_some_iff {table : Table} {budget : Nat} {n : Word} {d : Derived} :
    deriveSeed table budget n = some d ↔ ∃ up lo, extractHalf budget (initialGen table n) = some up ∧
      extractHalf up.left up.gen = some lo ∧ d = ⟨combineHalves up.digits lo.digits, budget - lo.left⟩ := by
  rw [deriveSeed]
  cases hup : extractHalf budget (initialGen table n) with
  | none => simp
  | some up =>
    cases hlo : extractHalf up.left up.gen with
    | none => simp [hlo]
    | some lo => simp [hlo, eq_comm]

/-- The nibbles of a word offered to an accumulator between micro-steps: it stays one, or it is complete with eight
distinct digits (41_seed_derivation R126, R130). -/
theorem scanWord_inv {acc : Acc} (h : acc.Inv) (j : Word32) (positions : List Nat) :
    ((scanWord j positions acc).full = false ∧ (scanWord j positions acc).Inv) ∨
      ((scanWord j positions acc).full = true ∧ DistinctDigits (scanWord j positions acc).a) := by
  induction positions generalizing acc with
  | nil => exact .inl ⟨Acc.not_full_of_slot h.slot, h⟩
  | cons p rest ih =>
    rw [scanWord]
    rcases Acc.offer_inv h (nibbleAt j p) with ⟨hf, hi⟩ | ⟨hf, hd⟩
    · rw [if_neg (by simp [hf])]
      exact ih hi
    · rw [if_pos hf]
      exact .inr ⟨hf, hd⟩

/-- A half that ends has eight distinct digits (41_seed_derivation R126). -/
theorem extractLoop_distinct {budget : Nat} {g : Gen} {acc : Acc} {e : Extracted} (hacc : acc.Inv)
    (h : extractLoop budget g acc = some e) : DistinctDigits e.digits := by
  induction budget generalizing g acc with
  | zero => cases h
  | succ budget ih =>
    rw [extractLoop] at h
    rcases scanWord_inv hacc (mswsOut g) scanPositions with ⟨hf, hi⟩ | ⟨hf, hd⟩
    · rw [if_neg (by simp [hf])] at h
      exact ih hi h
    · rw [if_pos hf] at h
      cases h
      exact hd

/-- Forcing bit 0 of a word forces bit 0 of its lowest digit (41_seed_derivation R133). -/
theorem nibbleAt_or_one_zero (v : Word32) : nibbleAt (v ||| 1#32) 0 = nibbleAt v 0 ||| 1#4 := by
  ext b hb
  simp [← BitVec.getLsbD_eq_getElem, getLsbD_nibbleAt, hb]

theorem or_one_of_odd {v : Word32} (h : v.getLsbD 0 = true) : v ||| 1#32 = v := by
  refine BitVec.eq_of_getLsbD_eq fun b hb => ?_
  rw [BitVec.getLsbD_or, BitVec.getLsbD_one]
  by_cases h0 : b = 0
  · simp [h0, h]
  · simp [h0]

/-- An even digit becomes the next one (90_conflicts C2). -/
theorem nibble_or_one_of_even : ∀ k : Nibble, k.getLsbD 0 = false → k ||| 1#4 = k + 1#4 := by decide

/-- Settles O42: both halves end with eight distinct digits, and forcing bit 0 changes the lowest digit alone. -/
theorem derivedSeedShape : Obligations.DerivedSeedShape := by
  intro table budget n d h
  obtain ⟨up, lo, hup, hlo, rfl⟩ := deriveSeed_eq_some_iff.1 h
  have hdup : DistinctDigits up.digits := extractLoop_distinct Acc.empty_inv hup
  have hdlo : DistinctDigits lo.digits := extractLoop_distinct Acc.empty_inv hlo
  refine ⟨up, lo, hup, hlo, rfl, getLsbD_combineHalves _ _ 0 (by decide), highHalf_combineHalves _ _, ?_, hdlo, ?_⟩
  · rwa [highHalf_combineHalves]
  rw [lowHalf_combineHalves, nibbleAt_or_one_zero]
  have hother : ∀ p : Fin 8, p ≠ 0 → nibbleAt (lo.digits ||| 1#32) (4 * p.val) = nibbleAt lo.digits (4 * p.val) :=
    nibbleAt_or_one lo.digits
  refine ⟨hother, rfl, fun hodd => ?_, fun heven => ?_⟩
  · rw [or_one_of_odd hodd]
    exact ⟨rfl, hdlo⟩
  · have hnext : nibbleAt lo.digits 0 ||| 1#4 = nibbleAt lo.digits 0 + 1#4 :=
      nibble_or_one_of_even _ (by rw [getLsbD_nibbleAt, heven]; rfl)
    refine ⟨hnext, exists_congr fun p => and_congr_right fun hp => ?_⟩
    rw [hother p hp, hnext]

/-- Refutes O43: with one odd entry at every index, the lower half derived from index 0 is 0x9CA5BD28 before bit 0 is
forced, and its last digit becomes a second 9 (as in V-D6 of 95_test_vectors). -/
theorem not_lowerHalfDigitsAlwaysDistinct : ¬ Obligations.LowerHalfDigitsAlwaysDistinct := by
  intro h
  have hseed : deriveSeed (fun _ => 0x3C6EF372FE94F82B#64) 4 0#64 = some ⟨0x5C6EF3729CA5BD29#64, 4⟩ := by
    decide +kernel
  have hdistinct := h (fun _ => 0x3C6EF372FE94F82B#64) (fun _ => by decide) 4 0#64 _ hseed
  exact hdistinct 0 7 (by decide) (by decide +kernel)

/-- A half that ends does so with just the T-steps it used, and leaves what stands over (41_seed_derivation R135). -/
theorem extractLoop_used {b : Nat} {g : Gen} {acc : Acc} {e : Extracted} (h : extractLoop b g acc = some e)
    (k : Nat) : extractLoop (b - e.left + k) g acc = some { e with left := k } := by
  induction b generalizing g acc with
  | zero => cases h
  | succ b ih =>
    have hleft := (extractLoop_budget h).1
    rw [show b + 1 - e.left + k = (b - e.left + k) + 1 by omega, extractLoop]
    rw [extractLoop] at h
    split at h
    case isTrue hf =>
      cases h
      rw [if_pos hf]
      simp
    case isFalse hf =>
      rw [if_neg hf]
      exact ih h

/-- A derivation that ends takes at least one T-step a half and no more than its budget (41_seed_derivation R130). -/
theorem deriveSeed_tSteps {table : Table} {budget : Nat} {n : Word} {d : Derived}
    (h : deriveSeed table budget n = some d) : 2 ≤ d.tSteps ∧ d.tSteps ≤ budget := by
  obtain ⟨up, lo, hup, hlo, rfl⟩ := deriveSeed_eq_some_iff.1 h
  have hu := (extractLoop_budget hup).1
  have hl := (extractLoop_budget hlo).1
  simp only
  omega

/-- Every budget from the T-steps taken on gives the same result (41_seed_derivation R135). -/
theorem deriveSeed_of_tSteps {table : Table} {budget : Nat} {n : Word} {d : Derived}
    (h : deriveSeed table budget n = some d) (k : Nat) : deriveSeed table (d.tSteps + k) n = some d := by
  obtain ⟨up, lo, hup, hlo, rfl⟩ := deriveSeed_eq_some_iff.1 h
  have hu := (extractLoop_budget hup).1
  have hl := (extractLoop_budget hlo).1
  have hup' := extractLoop_used hup (up.left - lo.left + k)
  have hsum : budget - up.left + (up.left - lo.left + k) = budget - lo.left + k := by omega
  rw [hsum] at hup'
  refine deriveSeed_eq_some_iff.2 ⟨_, _, hup', extractLoop_used hlo k, ?_⟩
  simp

/-- A derivation has one result, whatever the budget. -/
theorem deriveSeed_unique {table : Table} {budget budget' : Nat} {n : Word} {d d' : Derived}
    (h : deriveSeed table budget n = some d) (h' : deriveSeed table budget' n = some d') : d = d' := by
  have hd := deriveSeed_of_tSteps h d'.tSteps
  rw [Nat.add_comm, deriveSeed_of_tSteps h' d.tSteps] at hd
  exact (Option.some.inj hd).symm

/-- Settles O45: every budget from the T-steps taken on gives the same result, and a result takes no more T-steps than
its budget. -/
theorem derivationTakesAtLeastTwoTSteps : Obligations.DerivationTakesAtLeastTwoTSteps := by
  intro table budget n d h
  obtain ⟨htwo, hle⟩ := deriveSeed_tSteps h
  refine ⟨htwo, hle, fun more => ?_, fun fewer hfewer => ?_, deriveSeed_of_tSteps h 0⟩
  · have hmore := deriveSeed_of_tSteps h (budget - d.tSteps + more)
    rwa [show d.tSteps + (budget - d.tSteps + more) = budget + more by omega] at hmore
  · cases hd : deriveSeed table fewer n with
    | none => rfl
    | some d' =>
      have hle' := (deriveSeed_tSteps hd).2
      rw [deriveSeed_unique hd h] at hle'
      omega

/-! ## The micro-steps -/

/-- Settles O32: the two commands need no valid bit. -/
theorem derivationsStartAtAcceptance : Obligations.DerivationsStartAtAcceptance :=
  ⟨fun _ _ => exec_of_needs rfl, fun _ => exec_of_needs rfl⟩

/-- Settles O33: with an answer the step is one of the two cases of R142, and without one it only ticks. -/
theorem entropyAnswerMicroStep : Obligations.EntropyAnswerMicroStep := by
  intro s hr ho hp
  have hstep : step s = .next s.entropyStep := stepWith_entWait _ hr ho hp
  refine ⟨by simp [State.entReq, hp], by simp [State.busy, State.cmdReady, hp], fun ha hf => ?_, fun ha hf => ?_,
    fun ha => ?_⟩
  · rw [hstep]
    simp [State.entropyStep, ha, hf]
  · rw [hstep]
    simp [State.entropyStep, ha, hf, State.raise, Err.code]
  · rw [hstep]
    simp [State.entropyStep, ha]

/-- Settles O37: the index of the table entry is `tableIndex`, and the initial state is `initialGen`. -/
theorem setupMicroStep : Obligations.SetupMicroStep := by
  intro s index n1 tc hr ho hp hindex
  have hn1 : (normalise s.nreg).toNat = n1 := normalise_toNat s.nreg
  have hidx : index = tableIndex s.nreg := Fin.ext (by rw [hindex, tableIndex_val, hn1])
  have hx := initialX_toNat Config.sconst s.nreg
  subst hidx
  rw [hn1] at hx
  exact ⟨initialX Config.sconst s.nreg, hx, stepWith_setup _ hr ho hp⟩

/-- Settles O38: the step function in natural numbers, on the throwaway generator. -/
theorem fetchMicroStep : Obligations.FetchMicroStep := by
  intro s hr ho hp
  have hsum := mswsSum_toNat s.throwaway
  refine ⟨(mswsNext s.throwaway).x, (mswsNext s.throwaway).w, mswsOut s.throwaway, ?_⟩
  rw [mswsNext_x_toNat, mswsOut_toNat, hsum]
  exact ⟨rfl, BitVec.toNat_add .., rfl, stepWith_fetch _ hr ho hp⟩

/-- A used digit is skipped: the accumulator stays as it is (41_seed_derivation R128). -/
theorem State.scanned_of_used {s : State} (hu : s.acc.used (nibbleAt s.j s.i.toNat) = true) : s.scanned = s.acc :=
  Acc.offer_of_used hu

/-- After a used digit the scan goes on (41_seed_derivation R145). -/
theorem State.scanStep_of_used {s : State} (hm : SlotInRange s.m) (hu : s.acc.used (nibbleAt s.j s.i.toNat) = true) :
    s.scanStep = s.keepScanning := by
  rw [State.scanStep, scanned_of_used hu, Acc.not_full_of_slot (acc := s.acc) hm, if_neg Bool.false_ne_true]

/-- After a fresh digit that leaves room the scan goes on. -/
theorem State.scanStep_of_room {s : State} (hm : SlotInRange s.m)
    (hu : s.acc.used (nibbleAt s.j s.i.toNat) = false) (h28 : s.m ≠ 28#6) : s.scanStep = s.keepScanning := by
  have hfull : ¬ s.scanned.full = true := fun h => h28 ((Acc.full_offer_of_fresh hu hm).1 h)
  rw [State.scanStep, if_neg hfull]

/-- A fresh digit for the last slot completes the half. -/
theorem State.scanStep_of_last {s : State} (hm : SlotInRange s.m)
    (hu : s.acc.used (nibbleAt s.j s.i.toNat) = false) (h28 : s.m = 28#6) :
    s.scanStep = if s.half then s.finishLower else s.finishUpper := by
  have hfull : s.scanned.full = true := (Acc.full_offer_of_fresh hu hm).2 h28
  rw [State.scanStep, if_pos hfull]

/-- Where the scan goes on, by the position in the word (41_seed_derivation R145). -/
theorem State.keepScanning_eq {s : State} (hp : s.phase = .scan) :
    (s.i ≠ 28#5 → s.keepScanning =
      { s.tick with a := s.scanned.a, c := s.scanned.c, m := s.scanned.m, i := s.i + 4#5 }) ∧
    (s.i = 28#5 → s.keepScanning =
      { s.tick with a := s.scanned.a, c := s.scanned.c, m := s.scanned.m, phase := .fetch }) := by
  constructor <;> intro hi <;> simp [State.keepScanning, hi, hp]

/-- Settles O39: the bits name the nibble, the packed slot, the marked mask and the combined halves; a used digit, a fresh
one with room left and the eighth are the three ways on. -/
theorem scanMicroStep : Obligations.ScanMicroStep := by
  intro s k a1 c1 v hr ho hp hm _ hk ha hc hv
  have ek : k = nibbleAt s.j s.i.toNat := BitVec.eq_of_getLsbD_eq fun b hb => by
    rw [hk b hb, getLsbD_nibbleAt, decide_eq_true hb, Bool.true_and]
  have ea : a1 = setNibble s.a s.m.toNat k := BitVec.eq_of_getLsbD_eq fun b hb => by
    rw [ha b hb, getLsbD_setNibble _ _ _ _ hb]
  have ec : c1 = s.c ||| (1#16 <<< k.toNat) := BitVec.eq_of_getLsbD_eq fun b hb => by
    rw [hc b hb, getLsbD_mark _ _ _ hb]
  have ev : v = combineHalves s.uh a1 := BitVec.eq_of_getLsbD_eq fun b hb => by
    rw [hv b hb, getLsbD_combineHalves _ _ _ hb]
  have hstep : step s = .next s.scanStep := stepWith_scan _ hr ho hp
  obtain ⟨hmore, hlast⟩ := State.keepScanning_eq hp
  have hfresh : s.c.getLsbD k.toNat = false → s.scanned = ⟨a1, c1, s.m + 4#6⟩ := fun hu => by
    rw [ea, ec, ek]
    rw [ek] at hu
    exact Acc.offer_of_fresh hu
  rw [ev, hstep]
  refine ⟨fun hu hi => ?_, fun hu hi => ?_, fun hu h28 hi => ?_, fun hu h28 hi => ?_, fun hu h28 hh => ?_,
    fun hu h28 hh => ?_⟩
  · rw [ek] at hu
    rw [State.scanStep_of_used hm hu, hmore hi, State.scanned_of_used hu]
    rfl
  · rw [ek] at hu
    rw [State.scanStep_of_used hm hu, hlast hi, State.scanned_of_used hu]
    rfl
  · rw [State.scanStep_of_room hm (ek ▸ hu) h28, hmore hi, hfresh hu]
  · rw [State.scanStep_of_room hm (ek ▸ hu) h28, hlast hi, hfresh hu]
  · rw [State.scanStep_of_last hm (ek ▸ hu) h28, if_neg (by simp [hh]), State.finishUpper, hfresh hu]
    rfl
  · rw [State.scanStep_of_last hm (ek ▸ hu) h28, if_pos hh, State.finishLower, hfresh hu]
    rfl

/-! ## The micro-steps of a derivation, from `SETUP` on -/

/-- The next micro-step of a derivation at work, where no entropy is waited for (41_seed_derivation R143 to R145). -/
theorem Running.step_cases {table : Table} {s t : State} (hl : Running s) (hw : s.phase ≠ .entWait)
    (h : stepWith table s = .next t) :
    (s.phase = .setup ∧ t = s.setupStep table) ∨ (s.phase = .fetch ∧ t = s.fetchStep) ∨
      (s.phase = .scan ∧ t = s.scanStep) := by
  cases hp : s.phase with
  | idle => exact absurd hp hl.phase
  | entWait => exact absurd hp hw
  | setup => exact .inl ⟨rfl, Host.Outcome.next.inj (h.symm.trans (stepWith_setup table hl.noReset.1 hl.owed hp))⟩
  | fetch =>
    exact .inr (.inl ⟨rfl, Host.Outcome.next.inj (h.symm.trans (stepWith_fetch table hl.noReset.1 hl.owed hp))⟩)
  | scan => exact .inr (.inr ⟨rfl, Host.Outcome.next.inj (h.symm.trans (stepWith_scan table hl.noReset.1 hl.owed hp))⟩)

/-- What a derivation leaves as it was: the primary generator and its valid bits, the responses given, and a host that
has nothing more to do; it never goes back to `SETUP` or to waiting (10_state R28, R31). -/
structure Untouched (s t : State) : Prop where
  primary : t.primary = s.primary
  xv : t.xv = s.xv
  wv : t.wv = s.wv
  sv : t.sv = s.sv
  responses : t.responses = s.responses
  host : s.host = [] → t.host = []
  rsp : s.rsp = none → t.rsp = none
  started : s.phase ≠ .setup → t.phase ≠ .setup
  answered : s.phase ≠ .entWait → t.phase ≠ .entWait

theorem Untouched.refl (s : State) : Untouched s s := ⟨rfl, rfl, rfl, rfl, rfl, id, id, id, id⟩

theorem Untouched.trans {s t u : State} (h : Untouched s t) (h' : Untouched t u) : Untouched s u :=
  ⟨h'.primary.trans h.primary, h'.xv.trans h.xv, h'.wv.trans h.wv, h'.sv.trans h.sv, h'.responses.trans h.responses,
    h'.host ∘ h.host, h'.rsp ∘ h.rsp, h'.started ∘ h.started, h'.answered ∘ h.answered⟩

/-- A host that has nothing to do stays so. -/
theorem State.hostAfter_of_nil {s : State} (h : s.host = []) : s.hostAfter = [] := by
  simp [State.hostAfter, h]

/-- A micro-step that leaves what micro-steps leave, the responses too, and goes to a phase of the extraction. -/
theorem MicroFrame.untouched {s t : State} (h : MicroFrame s t) (hresponses : t.responses = s.responses)
    (hsetup : t.phase ≠ .setup) (hwait : t.phase ≠ .entWait) : Untouched s t where
  primary := by simp only [State.primary, h.x, h.w, h.s]
  xv := h.xv
  wv := h.wv
  sv := h.sv
  responses := hresponses
  host := fun hs => h.host.trans (State.hostAfter_of_nil hs)
  rsp := fun _ => h.rsp
  started := fun _ => hsetup
  answered := fun _ => hwait

theorem State.setupStep_untouched (table : Table) (s : State) : Untouched s (s.setupStep table) :=
  (s.setupStep_frame table).untouched rfl (fun h => nomatch h) (fun h => nomatch h)

theorem State.fetchStep_untouched (s : State) : Untouched s s.fetchStep :=
  s.fetchStep_frame.untouched rfl (fun h => nomatch h) (fun h => nomatch h)

theorem State.keepScanning_phase (s : State) : s.keepScanning.phase = .fetch ∨ s.keepScanning.phase = .scan := by
  by_cases hi : s.i = 28#5 <;> simp [State.keepScanning, hi]

theorem State.scanStep_untouched (s : State) : Untouched s s.scanStep := by
  have hframe := s.scanStep_frame
  rcases s.scanStep_cases with ⟨_, h⟩ | ⟨_, _, h⟩ | ⟨_, _, h⟩ <;> rw [h] at hframe ⊢
  · refine hframe.untouched rfl ?_ ?_ <;> rcases s.keepScanning_phase with hp | hp <;> simp [hp]
  · exact hframe.untouched rfl (fun h => nomatch h) (fun h => nomatch h)
  · exact hframe.untouched rfl (fun h => nomatch h) (fun h => nomatch h)

theorem Running.untouched {table : Table} {s t : State} (hl : Running s) (hw : s.phase ≠ .entWait)
    (h : stepWith table s = .next t) : Untouched s t := by
  rcases hl.step_cases hw h with ⟨_, rfl⟩ | ⟨_, rfl⟩ | ⟨_, rfl⟩
  · exact s.setupStep_untouched table
  · exact s.fetchStep_untouched
  · exact s.scanStep_untouched

theorem RunsTo.untouched {table : Table} {k f : Nat} {s u : State} (h : RunsTo table k f s u)
    (hw : s.phase ≠ .entWait) : Untouched s u := by
  induction h with
  | refl s => exact .refl s
  | step hl hs _ ih =>
    have hstep := hl.untouched hw hs
    exact hstep.trans (ih (hstep.answered hw))

/-- The moments before the end of such a run. -/
theorem RunsTo.exists_at {table : Table} {k f l : Nat} {s u : State} (h : RunsTo table k f s u) (hl : l < k) :
    ∃ f' v, RunsTo table l f' s v ∧ Running v := by
  induction h generalizing l with
  | refl s => exact absurd hl (by omega)
  | @step s t u k f hr hs _ ih =>
    cases l with
    | zero => exact ⟨0, s, .refl s, hr⟩
    | succ l =>
      obtain ⟨f', v, hv, hrun⟩ := ih (Nat.lt_of_succ_lt_succ hl)
      exact ⟨_, v, .step hr hs hv, hrun⟩

/-- No more `FETCH` micro-steps than micro-steps. -/
theorem RunsTo.fetches_le {table : Table} {k f : Nat} {s u : State} (h : RunsTo table k f s u) : f ≤ k := by
  induction h with
  | refl s => exact Nat.le_refl 0
  | step _ _ _ ih => split <;> omega

/-! ## The sequencer and the function -/

/-- A derivation about to be set up, that will not be reset. -/
structure SettingUp (s : State) : Prop where
  noReset : s.NoReset
  owed : s.owed = none
  phase : s.phase = .setup

theorem SettingUp.running {s : State} (h : SettingUp s) : Running s := ⟨h.noReset, h.owed, by simp [h.phase]⟩

theorem SettingUp.not_waiting {s : State} (h : SettingUp s) : s.phase ≠ .entWait := by simp [h.phase]

/-- The setup micro-step (41_seed_derivation R143) puts the generator and the accumulator of the function into the
registers. -/
theorem SettingUp.step {s : State} (table : Table) (h : SettingUp s) :
    RunsTo table 1 0 s (s.setupStep table) ∧ Running (s.setupStep table) ∧
      (s.setupStep table).throwaway = initialGen table s.nreg ∧ (s.setupStep table).acc = Acc.empty := by
  refine ⟨?_, ⟨h.noReset.tick, h.owed, fun h => nomatch h⟩, rfl, rfl⟩
  have := RunsTo.step h.running (stepWith_setup table h.noReset.1 h.owed h.phase) (RunsTo.refl _)
  rwa [h.phase] at this

/-- Where the function completes the upper half, the micro-steps do too, and go on with the lower half
(41_seed_derivation R130, R131). -/
theorem SettingUp.upper_half {table : Table} {s : State} {budget : Nat} {up : Extracted} (h : SettingUp s)
    (hup : extractHalf budget (initialGen table s.nreg) = some up) :
    ∃ k u, RunsTo table k (budget - up.left) s u ∧ up.left < budget ∧ Running u ∧ u.phase = .fetch ∧ u.half = true ∧
      u.uh = up.digits ∧ u.throwaway = up.gen ∧ u.acc = Acc.empty := by
  obtain ⟨hsetup, hrun, hgen, hacc⟩ := h.step table
  obtain ⟨k, u, hfirst, hlt, hdone⟩ :=
    half_some table budget (s.setupStep table) up hrun rfl (by rw [hgen, hacc]; exact hup)
  cases hdone with
  | lower _ _ _ _ hhalf => cases hhalf
  | upper hnr _ _ _ _ hphase howed hacc' hhalf huh hgen' =>
    have hruns := hsetup.trans hfirst
    rw [Nat.zero_add] at hruns
    exact ⟨_, u, hruns, hlt, ⟨hnr, howed, by simp [hphase]⟩, hphase, hhalf, huh, hgen', hacc'⟩

/-- Where a derivation ends: the engine idle, the seed written, valid and owed (41_seed_derivation R145). -/
structure Finished (u : State) (v : Word) : Prop where
  phase : u.phase = .idle
  seed : u.seed = v
  seedv : u.seedv = true
  owed : u.owed = some ⟨.ok, v⟩

/-- A derivation that the function ends, the micro-steps end too, with its seed and its T-steps. -/
theorem SettingUp.runsTo_finished {table : Table} {s : State} {budget : Nat} {d : Derived} (h : SettingUp s)
    (hd : deriveSeed table budget s.nreg = some d) : ∃ k u, RunsTo table k d.tSteps s u ∧ Finished u d.seed := by
  obtain ⟨up, lo, hup, hlo, rfl⟩ := deriveSeed_eq_some_iff.1 hd
  obtain ⟨k, u, hupper, hlt, hrun, hphase, hhalf, huh, hgen, hacc⟩ := h.upper_half hup
  obtain ⟨k', v, hlower, hlt', hdone⟩ := half_some table up.left u lo hrun hphase (by rw [hgen, hacc]; exact hlo)
  cases hdone with
  | upper _ _ _ _ hhalf' => exact absurd (hhalf.symm.trans hhalf') (by decide)
  | lower _ _ _ _ _ hidle hseedv hseed howed =>
    rw [huh] at hseed howed
    have hruns := hupper.trans hlower
    rw [show budget - up.left + (up.left - lo.left) = budget - lo.left by omega] at hruns
    exact ⟨_, v, hruns, hidle, hseed, hseedv, howed⟩

/-- Where the function does not end within a budget, the sequencer is busy for as many micro-steps at least. -/
theorem SettingUp.runsTo_of_none {table : Table} {s : State} {budget : Nat} (h : SettingUp s)
    (hd : deriveSeed table budget s.nreg = none) : ∃ k f u, RunsTo table k f s u ∧ budget ≤ k := by
  rw [deriveSeed] at hd
  cases hup : extractHalf budget (initialGen table s.nreg) with
  | none =>
    obtain ⟨hsetup, hrun, hgen, hacc⟩ := h.step table
    obtain ⟨k, u, hfirst, hle⟩ := half_none table budget (s.setupStep table) hrun rfl (by rw [hgen, hacc]; exact hup)
    exact ⟨_, _, u, hsetup.trans hfirst, by omega⟩
  | some up =>
    obtain ⟨k, u, hupper, hlt, hrun, hphase, _, _, hgen, hacc⟩ := h.upper_half hup
    have hlo : extractHalf up.left up.gen = none := by
      cases hlo : extractHalf up.left up.gen with
      | none => rfl
      | some lo => simp [hup, hlo] at hd
    obtain ⟨k', v, hlower, hle⟩ := half_none table up.left u hrun hphase (by rw [hgen, hacc]; exact hlo)
    have hcount := hupper.fetches_le
    exact ⟨_, _, v, hupper.trans hlower, by omega⟩

/-- A moment at which the engine is idle again bounds the T-steps the function needs. -/
theorem SettingUp.deriveSeed_of_idle {table : Table} {s t : State} {k : Nat} (h : SettingUp s)
    (hk : s.afterWith table k = some t) (ht : t.phase = .idle) : ∃ d, deriveSeed table (k + 1) s.nreg = some d := by
  cases hd : deriveSeed table (k + 1) s.nreg with
  | some d => exact ⟨d, rfl⟩
  | none =>
    obtain ⟨k', f, u, hruns, hle⟩ := h.runsTo_of_none hd
    obtain ⟨v, hv, hrun⟩ := hruns.after.2.2 k hle
    cases hk.symm.trans hv
    exact absurd ht hrun.phase

/-- The first moment at which the engine is idle again is the end of the derivation that the function gives. -/
theorem SettingUp.runsTo_of_first_idle {table : Table} {s t : State} {k : Nat} (h : SettingUp s)
    (hk : s.afterWith table k = some t) (ht : t.phase = .idle)
    (hbusy : ∀ l, l < k → ∃ u, s.afterWith table l = some u ∧ u.phase ≠ .idle) :
    ∃ d, deriveSeed table (k + 1) s.nreg = some d ∧ RunsTo table k d.tSteps s t ∧ Finished t d.seed := by
  obtain ⟨d, hd⟩ := h.deriveSeed_of_idle hk ht
  obtain ⟨k', u, hruns, hfin⟩ := h.runsTo_finished hd
  obtain ⟨hafter, _, hrunning⟩ := hruns.after
  have hkk : k = k' := by
    rcases Nat.lt_trichotomy k k' with hlt | heq | hgt
    · obtain ⟨v, hv, hrun⟩ := hrunning k hlt
      cases hk.symm.trans hv
      exact absurd ht hrun.phase
    · exact heq
    · obtain ⟨v, hv, hne⟩ := hbusy k' hgt
      cases hafter.symm.trans hv
      exact absurd hfin.phase hne
  subst hkk
  cases hk.symm.trans hafter
  exact ⟨d, hd, hruns, hfin⟩

/-- A derivation whose function does not end is at work after every number of micro-steps (41_seed_derivation R146). -/
theorem SettingUp.extracting_of_none {table : Table} {s : State} (h : SettingUp s)
    (hnone : ∀ budget, deriveSeed table budget s.nreg = none) (k : Nat) :
    ∃ t, s.afterWith table (k + 1) = some t ∧ Running t ∧ t.extracting ∧ t.rsp = none ∧
      t.responses = s.responses := by
  obtain ⟨k', f, u, hruns, hle⟩ := h.runsTo_of_none (hnone (k + 2))
  obtain ⟨f', t, hto, hrun⟩ := hruns.exists_at hle
  refine ⟨t, hto.after.1, hrun, ?_⟩
  cases hto with
  | step hl hs hrest =>
    cases hs.symm.trans (stepWith_setup table h.noReset.1 h.owed h.phase)
    have hleft := hrest.untouched (fun hw => nomatch hw)
    have hsetup := hleft.started (fun hp => nomatch hp)
    have hwait := hleft.answered (fun hw => nomatch hw)
    refine ⟨?_, hleft.rsp rfl, hleft.responses⟩
    cases hp : t.phase with
    | idle => exact absurd hp hrun.phase
    | entWait => exact absurd hp hwait
    | setup => exact absurd hp hsetup
    | fetch => exact .inl hp
    | scan => exact .inr hp

/-- Settles O40: a derivation that the function ends, the micro-steps end with its seed and T-steps; one that reaches
`IDLE` bounds the budget the function needs; and one that never ends stays in the extraction. -/
theorem sequencerAgreesWithTheFunction : Obligations.SequencerAgreesWithTheFunction := by
  intro table s hp ho hnr
  have h : SettingUp s := ⟨hnr, ho, hp⟩
  refine ⟨fun d => ⟨?_, ?_⟩, ?_, fun hnone k => ?_⟩
  · rintro ⟨budget, hd⟩
    obtain ⟨k, t, hruns, hfin⟩ := h.runsTo_finished hd
    obtain ⟨hafter, hfetches, hrunning⟩ := hruns.after
    refine ⟨k, t, hafter, hfin.phase, fun l hl => ?_, hfin.seed, hfin.seedv, hfin.owed, hfetches⟩
    obtain ⟨u, hu, hrun⟩ := hrunning l hl
    exact ⟨u, hu, hrun.phase⟩
  · rintro ⟨k, t, hk, ht, hbusy, hseed, _, _, hfetches⟩
    obtain ⟨d', hd', hruns, hfin⟩ := h.runsTo_of_first_idle hk ht hbusy
    have hseeds : d'.seed = d.seed := hfin.seed.symm.trans hseed
    have hsteps : d'.tSteps = d.tSteps := hruns.after.2.1.symm.trans hfetches
    have heq : d' = d := by
      cases d
      cases d'
      rw [Derived.mk.injEq]
      exact ⟨hseeds, hsteps⟩
    exact ⟨k + 1, heq ▸ hd'⟩
  · rintro ⟨k, t, hk, ht⟩
    exact ⟨k + 1, h.deriveSeed_of_idle hk ht⟩
  · obtain ⟨t, hafter, hrun, hx, hrsp, hresponses⟩ := h.extracting_of_none hnone k
    refine ⟨t, hafter, hx, ?_, hrun.owed, by simp [State.rspValid, hrsp], hresponses⟩
    simp [State.busy, State.cmdReady, hrun.phase]

/-! ## Two derivations of one index -/

/-- Two machines in step: the same phase, nothing that differs owed, and the same values in those registers that the rest
of the derivation reads at this phase (41_seed_derivation R137); at the end the same seed. -/
structure InStep (s s' : State) : Prop where
  noReset : s'.NoReset
  phase : s'.phase = s.phase
  owed : s'.owed = s.owed
  index : s.phase = .setup → s'.nreg = s.nreg
  throwaway : s.extracting → s'.throwaway = s.throwaway
  acc : s.extracting → s'.acc = s.acc
  half : s.extracting → s'.half = s.half
  upper : s.extracting → s.half = true → s'.uh = s.uh
  word : s.phase = .scan → s'.j = s.j ∧ s'.i = s.i
  seed : s.phase = .idle → s'.seed = s.seed ∧ s'.seedv = true

theorem InStep.running {s s' : State} (h : InStep s s') (hl : Running s) : Running s' :=
  ⟨h.noReset, h.owed.trans hl.owed, h.phase ▸ hl.phase⟩

/-- In the extraction, `InStep` is about the registers of the extraction. -/
theorem InStep.of_extracting {t t' : State} (hx : t.extracting) (noReset : t'.NoReset) (phase : t'.phase = t.phase)
    (owed : t'.owed = t.owed) (throwaway : t'.throwaway = t.throwaway) (acc : t'.acc = t.acc) (half : t'.half = t.half)
    (upper : t.half = true → t'.uh = t.uh) (word : t.phase = .scan → t'.j = t.j ∧ t'.i = t.i) : InStep t t' := by
  have hsetup : t.phase ≠ .setup := by rcases hx with h | h <;> simp [h]
  have hidle : t.phase ≠ .idle := by rcases hx with h | h <;> simp [h]
  exact ⟨noReset, phase, owed, fun h => absurd h hsetup, fun _ => throwaway, fun _ => acc, fun _ => half, fun _ => upper,
    word, fun h => absurd h hidle⟩

theorem InStep.setupStep {s s' : State} (h : InStep s s') (hp : s.phase = .setup) (table : Table) :
    InStep (s.setupStep table) (s'.setupStep table) := by
  refine .of_extracting (.inl rfl) h.noReset.tick rfl h.owed ?_ rfl rfl (fun hh => nomatch hh) (fun hs => nomatch hs)
  show initialGen table s'.nreg = initialGen table s.nreg
  rw [h.index hp]

theorem InStep.fetchStep {s s' : State} (h : InStep s s') (hp : s.phase = .fetch) :
    InStep s.fetchStep s'.fetchStep := by
  have hx : s.extracting := .inl hp
  have hgen := h.throwaway hx
  refine .of_extracting (.inr rfl) h.noReset.tick rfl h.owed ?_ (h.acc hx) (h.half hx) (h.upper hx) fun _ => ⟨?_, rfl⟩
  · rw [throwaway_fetchStep, throwaway_fetchStep, hgen]
  · show mswsOut s'.throwaway = mswsOut s.throwaway
    rw [hgen]

/-- Machines in step offer the same nibble to the same accumulator. -/
theorem InStep.scanned {s s' : State} (h : InStep s s') (hp : s.phase = .scan) : s'.scanned = s.scanned := by
  obtain ⟨hj, hi⟩ := h.word hp
  rw [State.scanned, State.scanned, h.acc (.inr hp), hj, hi]

theorem InStep.finishUpper {s s' : State} (h : InStep s s') (hp : s.phase = .scan) :
    InStep s.finishUpper s'.finishUpper :=
  have hdigits : s'.scanned.a = s.scanned.a := congrArg Acc.a (h.scanned hp)
  .of_extracting (.inl rfl) h.noReset.tick rfl h.owed (h.throwaway (.inr hp)) rfl rfl (fun _ => hdigits)
    (fun hs => nomatch hs)

theorem State.finishLower_phase (s : State) : s.finishLower.phase = .idle := rfl

theorem State.finishLower_owed (s : State) :
    s.finishLower.owed = some ⟨.ok, combineHalves s.uh s.scanned.a⟩ := rfl

/-- At the end of a derivation, `InStep` is about its result. -/
theorem InStep.of_idle {t t' : State} (hp : t.phase = .idle) (noReset : t'.NoReset) (phase : t'.phase = t.phase)
    (owed : t'.owed = t.owed) (seed : t'.seed = t.seed) (seedv : t'.seedv = true) : InStep t t' := by
  have hx : ¬ t.extracting := by simp [State.extracting, hp]
  exact ⟨noReset, phase, owed, fun h => absurd (hp.symm.trans h) (by decide), fun h => absurd h hx,
    fun h => absurd h hx, fun h => absurd h hx, fun h => absurd h hx, fun h => absurd (hp.symm.trans h) (by decide),
    fun _ => ⟨seed, seedv⟩⟩

theorem InStep.finishLower {s s' : State} (h : InStep s s') (hp : s.phase = .scan) (hh : s.half = true) :
    InStep s.finishLower s'.finishLower := by
  have hseed : combineHalves s'.uh s'.scanned.a = combineHalves s.uh s.scanned.a := by
    rw [h.upper (.inr hp) hh, h.scanned hp]
  refine .of_idle s.finishLower_phase h.noReset.tick ?_ ?_ hseed rfl
  · rw [State.finishLower_phase, State.finishLower_phase]
  · rw [State.finishLower_owed, State.finishLower_owed, hseed]

theorem InStep.keepScanning {s s' : State} (h : InStep s s') (hp : s.phase = .scan) :
    InStep s.keepScanning s'.keepScanning := by
  have hx : s.extracting := .inr hp
  obtain ⟨hj, hi⟩ := h.word hp
  have hacc : s'.keepScanning.acc = s.keepScanning.acc := h.scanned hp
  refine .of_extracting s.keepScanning_phase h.noReset.tick ?_ h.owed (h.throwaway hx) hacc (h.half hx) (h.upper hx)
    fun _ => ⟨hj, ?_⟩ <;> simp only [State.keepScanning, hi]

theorem InStep.scanStep {s s' : State} (h : InStep s s') (hp : s.phase = .scan) : InStep s.scanStep s'.scanStep := by
  rw [State.scanStep, State.scanStep, h.scanned hp, h.half (.inr hp)]
  split
  · split
    case isTrue hh => exact h.finishLower hp hh
    case isFalse => exact h.finishUpper hp
  · exact h.keepScanning hp

/-- Machines in step make the same micro-step (41_seed_derivation R137). -/
theorem InStep.step {table : Table} {s s' t : State} (h : InStep s s') (hl : Running s) (hw : s.phase ≠ .entWait)
    (hs : stepWith table s = .next t) : ∃ t', stepWith table s' = .next t' ∧ InStep t t' := by
  have hl' := h.running hl
  rcases hl.step_cases hw hs with ⟨hp, rfl⟩ | ⟨hp, rfl⟩ | ⟨hp, rfl⟩
  · exact ⟨_, stepWith_setup table hl'.noReset.1 hl'.owed (h.phase.trans hp), h.setupStep hp table⟩
  · exact ⟨_, stepWith_fetch table hl'.noReset.1 hl'.owed (h.phase.trans hp), h.fetchStep hp⟩
  · exact ⟨_, stepWith_scan table hl'.noReset.1 hl'.owed (h.phase.trans hp), h.scanStep hp⟩

/-- A machine in step with a derivation makes as many micro-steps as it, and stays in step. -/
theorem RunsTo.inStep {table : Table} {k f : Nat} {s u s' : State} (hruns : RunsTo table k f s u)
    (hw : s.phase ≠ .entWait) (h : InStep s s') : ∃ u', s'.afterWith table k = some u' ∧ InStep u u' := by
  induction hruns generalizing s' with
  | refl s => exact ⟨s', rfl, h⟩
  | step hl hs _ ih =>
    obtain ⟨t', hs', ht⟩ := h.step hl hw hs
    obtain ⟨u', hu, hin⟩ := ih ((hl.untouched hw hs).answered hw) ht
    exact ⟨u', by rw [State.afterWith, hs']; exact hu, hin⟩

/-- Two derivations about to be set up are in step if their indices are equal (41_seed_derivation R137). -/
theorem SettingUp.inStep {s s' : State} (h : SettingUp s) (h' : SettingUp s') (hn : s'.nreg = s.nreg) : InStep s s' := by
  have hx : ¬ s.extracting := by simp [State.extracting, h.phase]
  exact ⟨h'.noReset, h'.phase.trans h.phase.symm, h'.owed.trans h.owed.symm, fun _ => hn, fun h => absurd h hx,
    fun h => absurd h hx, fun h => absurd h hx, fun h => absurd h hx,
    fun hs => absurd (h.phase.symm.trans hs) (by decide), fun hs => absurd (h.phase.symm.trans hs) (by decide)⟩

/-- Settles O41: the two states are in step at `SETUP`, and stay so until the first derivation ends. -/
theorem derivationDependsOnItsIndexAlone : Obligations.DerivationDependsOnItsIndexAlone := by
  intro table s s' hp hp' ho ho' hnr hnr' hn k t hk ht hbusy
  have h : SettingUp s := ⟨hnr, ho, hp⟩
  have hin : InStep s s' := h.inStep ⟨hnr', ho', hp'⟩ hn.symm
  obtain ⟨_, _, hruns, _⟩ := h.runsTo_of_first_idle hk ht hbusy
  obtain ⟨t', ht', hend⟩ := hruns.inStep h.not_waiting hin
  obtain ⟨hseed, hseedv⟩ := hend.seed ht
  exact ⟨t', ht', hend.phase.trans ht, hseed, hseedv, hend.owed⟩

/-! ## Runs of a derivation -/

/-- A larger budget finds the same end (70_reset_and_hazards R207). -/
theorem Run.finish_add {table : Table} {r : Run} {budget : Nat} {e : RunEnd} (h : r.finish table budget = some e)
    (more : Nat) : r.finish table (budget + more) = some e := by
  induction budget generalizing r with
  | zero =>
    cases ho : r.state.runOver with
    | true => rw [finish_of_over ho] at h ⊢; exact h
    | false => simp [Run.finish, ho] at h
  | succ budget ih =>
    cases ho : r.state.runOver with
    | true => rw [finish_of_over ho] at h ⊢; exact h
    | false =>
      cases hn : r.next table with
      | none => simp [Run.finish, ho, hn] at h
      | some r' =>
        rw [finish_of_next ho hn] at h
        rw [Nat.add_right_comm, finish_of_next ho hn]
        exact ih h

/-- A run has one end, whatever the budget it is looked for with. -/
theorem Run.finish_unique {table : Table} {r : Run} {b b' : Nat} {e e' : RunEnd} (h : r.finish table b = some e)
    (h' : r.finish table b' = some e') : e = e' := by
  have hboth := finish_add h b'
  rw [Nat.add_comm, finish_add h' b] at hboth
  exact (Option.some.inj hboth).symm

/-- In a run, a micro-step of a derivation at work is the block's own, and the run is not over before it. -/
theorem Running.finish_succ {table : Table} {s t : State} (hl : Running s) (hw : s.phase ≠ .entWait) (hq : s.Quiet)
    (hs : stepWith table s = .next t) (answers : List EntropyAnswer) (budget : Nat) :
    Run.finish table (budget + 1) ⟨s, answers⟩ = Run.finish table budget ⟨t, answers⟩ := by
  have hask : s.asksEntropy = false := by simp [State.asksEntropy, State.entReq, hw]
  exact Run.finish_of_next (State.not_runOver_of_phase hl.phase) (Run.next_of_quiet (r := ⟨s, answers⟩) hask hq hs) budget

/-- A run goes along with the micro-steps of a derivation. -/
theorem RunsTo.finish {table : Table} {k f : Nat} {s u : State} (h : RunsTo table k f s u) (hw : s.phase ≠ .entWait)
    (hq : s.Quiet) (answers : List EntropyAnswer) (budget : Nat) :
    Run.finish table (budget + k) ⟨s, answers⟩ = Run.finish table budget ⟨u, answers⟩ := by
  induction h with
  | refl s => rfl
  | step hl hs _ ih =>
    rw [← ih ((hl.untouched hw hs).answered hw) (hq.step hs)]
    exact hl.finish_succ hw hq hs answers _

theorem State.Quiet.noReset {s : State} (h : s.Quiet) : s.NoReset :=
  ⟨h.rst, fun p hp => by rw [h.2] at hp; cases hp⟩

/-- Within a run from `s`, a state in which the only command has been accepted: nothing is presented, owed or answered,
and the primary generator is that of `s`. -/
structure Accepted (s t : State) : Prop where
  owed : t.owed = none
  host : t.host = []
  responses : t.responses = []
  primary : t.primary = s.primary
  xv : t.xv = s.xv
  wv : t.wv = s.wv
  sv : t.sv = s.sv

/-- Such a state in which the derivation of the index `n` is about to be set up. -/
structure DerivingFrom (s : State) (n : Word) (t : State) : Prop extends Accepted s t where
  quiet : t.Quiet
  phase : t.phase = .setup
  nreg : t.nreg = n

theorem DerivingFrom.settingUp {s t : State} {n : Word} (h : DerivingFrom s n t) : SettingUp t :=
  ⟨h.quiet.noReset, h.owed, h.phase⟩

/-- What the end of a run says of a derivation that gave the seed `v`: the one response, the seed, and the primary
generator of the start (41_seed_derivation R138, R139). -/
structure EndsWithSeed (s : State) (v : Word) (e : RunEnd) : Prop where
  observation : e.observation = [⟨.ok, v⟩]
  seed : e.endState.seed = v
  seedv : e.endState.seedv = true
  primary : e.endState.primary = s.primary
  xv : e.endState.xv = s.xv
  wv : e.endState.wv = s.wv
  sv : e.endState.sv = s.sv

@[simp] theorem State.registers_deliver (s : State) (q : Response) :
    (s.deliver q).registers = { s.registers with owed := none } := rfl

/-- A run in which the last response is owed by an idle engine is over after giving it. -/
theorem Run.finish_of_last_response {table : Table} {u : State} {q : Response} (answers : List EntropyAnswer)
    (hp : u.phase = .idle) (ho : u.owed = some q) (hh : u.host = []) :
    Run.finish table 1 ⟨u, answers⟩ =
      some { endState := { u.registers with owed := none }, observation := u.responses ++ [q] } := by
  have hhost : (u.withPins Pins.quiet).hostAfter = [] := State.hostAfter_of_nil hh
  have hover : (((u.withPins Pins.quiet).tick.deliver q).withPins Pins.quiet).runOver = true := by
    rw [State.runOver_iff]
    simp [hhost, hp]
  rw [Run.finish_of_next (State.not_runOver_of_owed ho) (Run.next_of_owed (r := ⟨u, answers⟩) ho),
    Run.finish_of_over hover]
  simp [Run.ending]

/-- A derivation within a run ends it where the function ends (41_seed_derivation R146). -/
theorem DerivingFrom.finish_of_deriveSeed {table : Table} {s t : State} {n : Word} {budget : Nat} {d : Derived}
    (h : DerivingFrom s n t) (hd : deriveSeed table budget n = some d) (answers : List EntropyAnswer) :
    ∃ b e, Run.finish table b ⟨t, answers⟩ = some e ∧ EndsWithSeed s d.seed e := by
  rw [← h.nreg] at hd
  obtain ⟨k, u, hruns, hfin⟩ := h.settingUp.runsTo_finished hd
  have hleft := hruns.untouched h.settingUp.not_waiting
  have hlast := Run.finish_of_last_response (table := table) answers hfin.phase hfin.owed (hleft.host h.host)
  rw [← hruns.finish h.settingUp.not_waiting h.quiet, hleft.responses, h.responses] at hlast
  exact ⟨_, _, hlast, rfl, hfin.seed, hfin.seedv, hleft.primary.trans h.primary, hleft.xv.trans h.xv,
    hleft.wv.trans h.wv, hleft.sv.trans h.sv⟩

/-- A run that ends gives the function a budget. -/
theorem DerivingFrom.deriveSeed_of_finish {table : Table} {s t : State} {n : Word} {budget : Nat} {e : RunEnd}
    {answers : List EntropyAnswer} (h : DerivingFrom s n t) (he : Run.finish table budget ⟨t, answers⟩ = some e) :
    ∃ d, deriveSeed table (budget + 1) n = some d := by
  rw [← h.nreg]
  cases hd : deriveSeed table (budget + 1) t.nreg with
  | some d => exact ⟨d, rfl⟩
  | none =>
    obtain ⟨k, f, u, hruns, hle⟩ := h.settingUp.runsTo_of_none hd
    obtain ⟨f', v, hto, hrun⟩ := hruns.exists_at hle
    have hbusy := hto.finish h.settingUp.not_waiting h.quiet answers 0
    rw [Nat.zero_add, he, Run.finish, if_neg (by simp [State.not_runOver_of_phase hrun.phase])] at hbusy
    cases hbusy

/-- The first step of a run accepts its first command. -/
theorem Run.finish_start {table : Table} {s : State} {op : Byte} {d : Word} {i : Instr} (answers : List EntropyAnswer)
    (hready : s.cmdReady = true) (hd : decode op d = .command i) (hneeds : ∀ u, needs i u = true) (budget : Nat) :
    (Run.start s [(op, d)] answers).finish table (budget + 1) =
      Run.finish table budget ⟨effect i (Run.start s [(op, d)] answers).state.tick, answers⟩ := by
  obtain ⟨hp, ho⟩ := State.cmdReady_iff.1 hready
  have hhost : (Run.start s [(op, d)] answers).state.host = .issue op d :: [] := rfl
  exact finish_of_next (State.not_runOver_of_issue hhost)
    (next_of_command hp ho (State.withPins_quiet _) hhost hd (exec_of_needs (hneeds _))) budget

/-- At its acceptance the only command is taken from the port. -/
theorem Run.start_accepted {s : State} (op : Byte) (d : Word) (answers : List EntropyAnswer)
    (hready : s.cmdReady = true) : Accepted s (Run.start s [(op, d)] answers).state.tick where
  owed := (State.cmdReady_iff.1 hready).2
  host := State.hostAfter_of_ready (s := (Run.start s [(op, d)] answers).state) hready rfl
  responses := rfl
  primary := rfl
  xv := rfl
  wv := rfl
  sv := rfl

/-- A `DERIVE n` sets up the derivation of `n` at its acceptance (41_seed_derivation R141). -/
theorem Accepted.derive {s u : State} (h : Accepted s u) (hq : u.Quiet) (n : Word) :
    DerivingFrom s n (effect (.derive n) u) where
  toAccepted := ⟨h.owed, h.host, h.responses, h.primary, h.xv, h.wv, h.sv⟩
  quiet := hq
  phase := rfl
  nreg := rfl

/-- A waiting block after an entropy value: the derivation of it is set up (41_seed_derivation R142). -/
def State.givenValue (n : Word) (u : State) : State :=
  { (u.withPins (EntropyAnswer.value n).pins).tick with nreg := n, phase := .setup }.withPins Pins.quiet

/-- In a run, an answer with a value is given at the first edge at which it is asked for (log entry 18). -/
theorem Run.finish_value {table : Table} {u : State} {n : Word} {answers : List EntropyAnswer}
    (hp : u.phase = .entWait) (ho : u.owed = none) (ha : answers.head? = some (.value n)) (budget : Nat) :
    Run.finish table (budget + 1) ⟨u, answers⟩ = Run.finish table budget ⟨u.givenValue n, answersLeft answers⟩ := by
  have hhead : answers.headD .never = .value n := by
    rw [List.headD_eq_head?_getD, ha, Option.getD_some]
  have hstep : (u.withPins (EntropyAnswer.value n).pins).entropyStep =
      { (u.withPins (EntropyAnswer.value n).pins).tick with nreg := n, phase := .setup } := by
    simp [State.entropyStep, EntropyAnswer.pins, Pins.quiet]
  have hnext := next_of_request (table := table) (r := ⟨u, answers⟩) hp ho
  rw [hhead, hstep] at hnext
  exact finish_of_next (State.not_runOver_of_phase (by simp [hp])) hnext budget

/-- A value sets up the derivation of its index, once an `RSEED` has been accepted. -/
theorem Accepted.givenValue {s u : State} (h : Accepted s u) (n : Word) :
    DerivingFrom s n ((effect .rseed u).givenValue n) where
  toAccepted := ⟨h.owed, State.hostAfter_of_nil h.host, h.responses, h.primary, h.xv, h.wv, h.sv⟩
  quiet := State.withPins_quiet _
  phase := rfl
  nreg := rfl

/-- A run of one command, `DERIVE n` or an `RSEED` answered `Value(n)`, sets up the derivation of `n` and goes on from
there (41_seed_derivation R141, R142). -/
theorem Run.start_derivation (table : Table) {s : State} {n : Word} {c : Byte × Word} {answers : List EntropyAnswer}
    (hready : s.cmdReady = true) (hc : c = (0x40#8, n) ∨ c.1 = 0x41#8 ∧ answers.head? = some (.value n)) :
    ∃ b t rest, DerivingFrom s n t ∧
      ∀ budget, (Run.start s [c] answers).finish table (budget + b) = Run.finish table budget ⟨t, rest⟩ := by
  obtain ⟨op, d⟩ := c
  have hacc := start_accepted op d answers hready
  have hquiet : (Run.start s [(op, d)] answers).state.tick.Quiet := (State.withPins_quiet _).tick
  rcases hc with hc | ⟨hop, ha⟩
  · cases hc
    exact ⟨1, _, answers, hacc.derive hquiet n, finish_start answers hready rfl fun _ => rfl⟩
  · have hd : decode op d = .command .rseed := by
      rw [show op = 0x41#8 from hop]
      rfl
    refine ⟨2, _, answersLeft answers, hacc.givenValue n, fun budget => ?_⟩
    exact (finish_start answers hready hd (fun _ => rfl) (budget + 1)).trans
      (finish_value (u := effect .rseed (Run.start s [(op, d)] answers).state.tick) rfl hacc.owed ha budget)

/-- Settles O51: the run goes along with the derivation from `SETUP` on, and one step later the seed is given. -/
theorem derivationRunsEndWithTheirSeed : Obligations.DerivationRunsEndWithTheirSeed := by
  intro table s n c answers hready hc
  obtain ⟨b, t, rest, hder, hrun⟩ := Run.start_derivation table hready hc
  refine ⟨⟨?_, ?_⟩, fun budget d steps e hd he => ?_⟩
  · rintro ⟨budget, e, he⟩
    obtain ⟨d, hd⟩ := hder.deriveSeed_of_finish ((hrun budget).symm.trans (Run.finish_add he b))
    exact ⟨_, d, hd⟩
  · rintro ⟨budget, d, hd⟩
    obtain ⟨b', e, he, _⟩ := hder.finish_of_deriveSeed hd rest
    exact ⟨_, e, (hrun b').trans he⟩
  · obtain ⟨b', e', he', hend⟩ := hder.finish_of_deriveSeed hd rest
    cases Run.finish_unique he ((hrun b').trans he')
    exact ⟨hend.observation, hend.seed, hend.seedv, hend.primary, hend.xv, hend.wv, hend.sv⟩

end Sys2Proof.Machine
end

section
/-! PROOFS. The reads, the `STATUS` view and `CLRERR` (10_state R26, 42_system R160 to R165). -/

namespace Sys2Proof.Machine

/-! ## The bits of `STATUS` -/

/-- Of bits written one after the other, the last is the lowest. -/
theorem getLsbD_append_ofBool {w : Nat} (v : BitVec w) (bit : Bool) (b : Nat) :
    (v ++ BitVec.ofBool bit).getLsbD b = if b = 0 then bit else v.getLsbD (b - 1) := by
  rw [BitVec.getLsbD_append]
  cases b <;> simp

/-- The seven named bits, the lowest first (10_state R26). -/
theorem State.getLsbD_status (s : State) :
    s.status.getLsbD 0 = s.xv ∧ s.status.getLsbD 1 = s.wv ∧ s.status.getLsbD 2 = s.sv ∧
    s.status.getLsbD 3 = s.seedv ∧ s.status.getLsbD 4 = s.eill ∧ s.status.getLsbD 5 = s.einv ∧
    s.status.getLsbD 6 = s.eent := by
  simp [State.status, State.statusBits, getLsbD_append_ofBool, -BitVec.getLsbD_eq_getElem]

/-- The bits above the seven named ones are hardwired zero (10_state R26). -/
theorem State.getLsbD_status_of_ge (s : State) {b : Nat} (hb : 7 ≤ b) : s.status.getLsbD b = false := by
  rw [State.status, BitVec.getLsbD_setWidth, BitVec.getLsbD_of_ge s.statusBits b hb, Bool.and_false]

/-! ## The commands -/

/-- Settles O22: each read needs the valid bit of its own register alone. -/
theorem readsRespondWithTheRegister : Obligations.ReadsRespondWithTheRegister := fun _ =>
  ⟨exec_of_needs (i := .rdx), exec_of_needs (i := .rdw), exec_of_needs (i := .rds), exec_of_needs (i := .rdseed)⟩

/-- Settles O24: `RDSTAT` needs no valid bit and answers with `STATUS`, read bit by bit. -/
theorem rdstatReportsTheStatusBits : Obligations.RdstatReportsTheStatusBits := by
  intro s
  refine ⟨s.status, exec_of_needs (i := .rdstat) rfl, ?_⟩
  obtain ⟨hxv, hwv, hsv, hseedv, heill, heinv, heent⟩ := s.getLsbD_status
  exact ⟨hxv, hwv, hsv, hseedv, heill, heinv, heent, fun _ => s.getLsbD_status_of_ge⟩

/-- Settles O25: `CLRERR` needs no valid bit. -/
theorem clrerrClearsTheStickyFlags : Obligations.ClrerrClearsTheStickyFlags := fun _ =>
  exec_of_needs (i := .clrerr) rfl

end Sys2Proof.Machine
end

section
/-! PROOFS. Errors and what is no error (60_exceptions R170 to R184): one response for every command, the three errors, a
machine that never stops, the request that hangs, and the blocks of a chip. -/

namespace Sys2Proof.Machine

/-! ## Every state has a next state -/

/-- A ready engine answers a next state whatever is presented (41_seed_derivation R141). -/
theorem State.accept_next (s : State) : ∃ t, s.accept = .next t := by
  cases hc : s.presented with
  | none => exact ⟨s.tick, by simp only [State.accept, hc]⟩
  | some c =>
    obtain ⟨op, d⟩ := c
    cases hd : decode op d with
    | command i =>
      obtain ⟨t, ht⟩ := exec_next i s.tick
      exact ⟨t, by simp only [State.accept, hc, hd, ht]⟩
    | illegal => exact ⟨s.tick.raise .ill, by simp only [State.accept, hc, hd]⟩

theorem stepWith_next (table : Table) (s : State) : ∃ t, stepWith table s = .next t := by
  cases hr : s.pins.rst with
  | true => exact ⟨_, stepWith_reset table hr⟩
  | false =>
    cases ho : s.owed with
    | some r => exact ⟨_, stepWith_deliver table hr ho⟩
    | none =>
      cases hp : s.phase with
      | idle =>
        rw [stepWith_idle table hr ho hp]
        exact s.accept_next
      | entWait => exact ⟨_, stepWith_entWait table hr ho hp⟩
      | setup => exact ⟨_, stepWith_setup table hr ho hp⟩
      | fetch => exact ⟨_, stepWith_fetch table hr ho hp⟩
      | scan => exact ⟨_, stepWith_scan table hr ho hp⟩

/-- Settles O13: reset, delivery, acceptance and each micro-step answer a next state, with every table. -/
theorem everyStateHasANextState : Obligations.EveryStateHasANextState :=
  stepWith_next Config.sconst

/-! ## Commands in flight -/

theorem State.cmdReady_eq_false_iff {s : State} : s.cmdReady = false ↔ s.phase ≠ .idle ∨ s.owed ≠ none := by
  rw [← Bool.not_eq_true, State.cmdReady_iff, not_and_or]

/-- Under the invariant a busy engine has one command in flight, and a ready one none (10_state R31, R32). -/
theorem State.Inv.inFlight_eq {s : State} (h : s.Inv) : s.inFlight = if s.cmdReady then 0 else 1 := by
  by_cases ho : s.owed = none
  · simp [State.inFlight, State.cmdReady, ho]
  · simp [State.inFlight, State.cmdReady, ho, h.owedIdle ho]

/-- What a command does at its acceptance leaves it in flight: it runs, or its response is owed. -/
theorem exec_cmdReady {i : Instr} {s t : State} (h : exec i s = .next t) : t.cmdReady = false := by
  rw [State.cmdReady_eq_false_iff]
  rcases exec_cases h with ⟨_, rfl⟩ | ⟨_, rfl⟩
  · cases hd : startsDerivation i with
    | true => rcases eq_of_startsDerivation hd with ⟨n, rfl⟩ | rfl <;> exact .inl (by simp [effect])
    | false =>
      obtain ⟨_, _, _, _, v, howed⟩ := effect_of_no_derivation hd s
      exact .inr (by simp [howed])
  · exact .inr (by simp)

/-- The micro-steps of a derivation and a wait for entropy leave its command in flight and give no response. -/
structure StaysInFlight (s t : State) : Prop where
  busy : t.cmdReady = false
  responses : t.responses = s.responses

theorem State.entropyStep_staysInFlight {s : State} (hp : s.phase = .entWait) : StaysInFlight s s.entropyStep := by
  rcases s.entropyStep_cases with ⟨_, h⟩ | ⟨_, _, h⟩ | ⟨_, _, h⟩ <;> rw [h]
  · exact ⟨State.cmdReady_eq_false_iff.2 (.inl (by simp [hp])), rfl⟩
  · exact ⟨rfl, rfl⟩
  · exact ⟨rfl, rfl⟩

theorem State.scanStep_staysInFlight (s : State) : StaysInFlight s s.scanStep := by
  rcases s.scanStep_cases with ⟨_, h⟩ | ⟨_, _, h⟩ | ⟨_, _, h⟩ <;> rw [h]
  · refine ⟨State.cmdReady_eq_false_iff.2 (.inl ?_), rfl⟩
    rcases s.keepScanning_phase with hp | hp <;> simp [hp]
  · exact ⟨rfl, rfl⟩
  · exact ⟨rfl, rfl⟩

/-- Where `PHASE` is not `IDLE`, such a step accepts nothing and leaves the engine busy. -/
theorem StaysInFlight.of_phase {s t : State} (h : StaysInFlight s t) (hp : s.phase ≠ .idle) :
    s.accepts = false ∧ t.cmdReady = s.cmdReady ∧ t.responses = s.responses := by
  have hbusy : s.cmdReady = false := State.cmdReady_eq_false_iff.2 (.inl hp)
  exact ⟨by simp [State.accepts, hbusy], h.busy.trans hbusy.symm, h.responses⟩

/-- How a step without a reset moves the balance: it accepts a command, gives the response of one in flight, or does
neither and leaves what is in flight (10_state R32). -/
theorem balance_cases {s t : State} (hr : s.pins.rst = false) (h : step s = .next t) :
    (s.accepts = true ∧ s.cmdReady = true ∧ t.cmdReady = false ∧ t.responses = s.responses) ∨
    (∃ r, s.owed = some r ∧ t.owed = none ∧ t.phase = s.phase ∧ t.responses = s.responses ++ [r]) ∨
    (s.accepts = false ∧ t.cmdReady = s.cmdReady ∧ t.responses = s.responses) := by
  rcases step_cases h with ⟨hr', _⟩ | ⟨_, r, ho, rfl⟩ | ⟨_, _, _, hc, rfl⟩ | ⟨_, ho, hp, op, d, i, hc, _, he⟩ |
    ⟨_, ho, hp, op, d, hc, _, rfl⟩ | ⟨_, _, hp, rfl⟩ | ⟨_, _, hp, rfl⟩ | ⟨_, _, hp, rfl⟩ | ⟨_, _, hp, rfl⟩
  · exact absurd (hr'.symm.trans hr) (by decide)
  · exact .inr (.inl ⟨r, ho, rfl, rfl, rfl⟩)
  · exact .inr (.inr ⟨by simp [State.accepts, hc], rfl, rfl⟩)
  · have hready := State.cmdReady_iff.2 ⟨hp, ho⟩
    exact .inl ⟨by simp [State.accepts, hready, hc], hready, exec_cmdReady he, (exec_sameHidden he).responses⟩
  · have hready := State.cmdReady_iff.2 ⟨hp, ho⟩
    exact .inl ⟨by simp [State.accepts, hready, hc], hready, rfl, rfl⟩
  · exact .inr (.inr ((State.entropyStep_staysInFlight hp).of_phase (by simp [hp])))
  · exact .inr (.inr (StaysInFlight.of_phase ⟨rfl, rfl⟩ (by simp [hp])))
  · exact .inr (.inr (StaysInFlight.of_phase ⟨rfl, rfl⟩ (by simp [hp])))
  · exact .inr (.inr (s.scanStep_staysInFlight.of_phase (by simp [hp])))

/-- Settles O10: the invariant holds before and after the step, so what is in flight is read off `cmd_ready`. -/
theorem commandsAndResponsesBalance : Obligations.CommandsAndResponsesBalance := by
  intro s t hinv hr h
  rw [hinv.inFlight_eq, (everyStepKeepsTheInvariant s t hinv h).inFlight_eq]
  refine ⟨by split <;> omega, ?_⟩
  rcases balance_cases hr h with ⟨hacc, hready, hbusy, hresp⟩ | ⟨r, ho, ho', hp', hresp⟩ | ⟨hacc, hsame, hresp⟩
  · simp [hacc, hready, hbusy, hresp]
  · have hp : s.phase = .idle := hinv.owedIdle (by simp [ho])
    simp [State.accepts, State.cmdReady, ho, ho', hp, hp', hresp]
  · simp [hacc, hsame, hresp]

/-! ## The request that is never answered -/

/-- What holds of the input pins at this edge and at every coming one still does after a tick (log entry 2). -/
theorem State.tick_pins_forall {P : Pins → Prop} {s : State} (hnow : P s.pins) (hnext : ∀ p ∈ s.pinsNext, P p) :
    P s.tick.pins ∧ ∀ p ∈ s.tick.pinsNext, P p := by
  refine ⟨?_, fun p hp => hnext p (List.mem_of_mem_tail hp)⟩
  rw [State.tick_pins]
  cases hs : s.pinsNext with
  | nil => exact hnow
  | cons p rest => exact hnext p (by simp [hs])

theorem State.NeverAnswered.tick {s : State} (h : s.NeverAnswered) : s.tick.NeverAnswered :=
  State.tick_pins_forall h.1 h.2

/-- Without an answer a waiting engine only lets the outside world go on (41_seed_derivation R142). -/
theorem stepWith_unanswered (table : Table) {s : State} (hp : s.phase = .entWait) (ho : s.owed = none)
    (hr : s.NoReset) (hn : s.NeverAnswered) : stepWith table s = .next s.tick := by
  rw [stepWith_entWait table hr.1 ho hp, State.entropyStep, if_neg (by simp [hn.1])]

/-- What stays of a waiting engine: the request, the responses given, the flags, and a presented command. -/
structure StillWaiting (s t : State) : Prop where
  phase : t.phase = .entWait
  responses : t.responses = s.responses
  status : t.status = s.status
  host : ∀ op d rest, s.host = .issue op d :: rest → t.host = s.host

theorem State.cmdReady_of_entWait {s : State} (hp : s.phase = .entWait) : s.cmdReady = false :=
  State.cmdReady_eq_false_iff.2 (.inl (by simp [hp]))

/-- An unanswered request stands after any number of steps (60_exceptions R180). -/
theorem State.afterWith_unanswered (table : Table) (k : Nat) {s : State} (hp : s.phase = .entWait) (ho : s.owed = none)
    (hr : s.NoReset) (hn : s.NeverAnswered) : ∃ t, s.afterWith table k = some t ∧ StillWaiting s t := by
  induction k generalizing s with
  | zero => exact ⟨s, rfl, hp, rfl, rfl, fun _ _ _ _ => rfl⟩
  | succ k ih =>
    obtain ⟨t, ht, hwait⟩ := ih (s := s.tick) hp ho hr.tick hn.tick
    refine ⟨t, ?_, hwait.phase, hwait.responses, hwait.status, fun op d rest hh => ?_⟩
    · simp only [State.afterWith, stepWith_unanswered table hp ho hr hn, ht]
    · have hheld : s.tick.host = .issue op d :: rest := State.hostAfter_of_busy (State.cmdReady_of_entWait hp) hh
      rw [hwait.host op d rest hheld, hheld, hh]

/-- Settles O34: every step of a request that is never answered is a tick. -/
theorem unansweredEntropyRequestHangs : Obligations.UnansweredEntropyRequestHangs := by
  intro s hp ho hr hn k
  obtain ⟨t, ht, hwait⟩ := State.afterWith_unanswered Config.sconst k hp ho hr hn
  exact ⟨t, ht, hwait.phase, by simp [State.busy, State.cmdReady_of_entWait hwait.phase],
    by simp [State.entReq, hwait.phase], hwait.responses, hwait.status, hwait.host⟩

/-! ## The errors of an accepted byte -/

/-- A ready engine raises `ILL` for a byte that selects no command (60_exceptions R173). -/
theorem step_of_illegal {s : State} {op : Byte} {d : Word} (hr : s.pins.rst = false) (hready : s.cmdReady = true)
    (hc : s.presented = some (op, d)) (hd : decode op d = .illegal) : step s = .next (s.tick.raise .ill) := by
  obtain ⟨hp, ho⟩ := State.cmdReady_iff.1 hready
  rw [step_eq, stepWith_idle _ hr ho hp]
  simp only [State.accept, hc, hd]

/-- On an idle engine the error `ILL` sets its flag and owes its answer, and that is all (60_exceptions R172). -/
theorem State.raise_ill_of_idle {s : State} (hp : s.phase = .idle) :
    s.raise .ill = { s with eill := true, owed := some ⟨.ill, 0#64⟩ } := by
  cases s
  cases hp
  simp [State.raise, Err.code]

/-- Settles O6: a byte that is not among the fourteen decodes to no command. -/
theorem illegalByteRaisesIll : Obligations.IllegalByteRaisesIll := by
  intro s op d rest hr hp ho hh hop
  have hc : s.presented = some (op, d) := by simp [State.presented, hh]
  rw [step_of_illegal hr (State.cmdReady_iff.2 ⟨hp, ho⟩) hc ((decode_eq_illegal_iff op d).2 hop),
    State.raise_ill_of_idle (s := s.tick) hp]

theorem State.generatorValid_eq_false_iff {s : State} :
    s.generatorValid = false ↔ s.xv = false ∨ s.wv = false ∨ s.sv = false := by
  simp only [State.generatorValid, Bool.and_eq_false_iff, or_assoc]

theorem exec_of_unwritten {i : Instr} {s : State} (h : needs i s = false) :
    exec i s = .next { s with einv := true, phase := .idle, owed := some ⟨.inv, 0#64⟩ } := by
  rw [exec_of_missing h, State.raise_inv_eq]

/-- Settles O23: `STEP` needs the three valid bits of the generator, each of the others that of the register it reads. -/
theorem unwrittenRegisterRaisesInv : Obligations.UnwrittenRegisterRaisesInv := fun _ =>
  ⟨fun h => exec_of_unwritten (i := .step) (State.generatorValid_eq_false_iff.2 h),
    exec_of_unwritten (i := .rdx), exec_of_unwritten (i := .rdw), exec_of_unwritten (i := .rds),
    exec_of_unwritten (i := .rdseed), exec_of_unwritten (i := .inits)⟩

/-! ## Several blocks on a chip -/

/-- Choosing a place without a block moves nothing. -/
theorem Chip.stepAt_of_none {chip : Chip} {k : Nat} (h : chip[k]? = none) : Chip.stepAt k chip = .next chip := by
  simp only [Chip.stepAt, h]

theorem Chip.stepAt_of_step {chip : Chip} {k : Nat} {s t : State} (h : chip[k]? = some s) (ht : step s = .next t) :
    Chip.stepAt k chip = .next (chip.set k t) := by
  simp only [Chip.stepAt, h, ht]

/-- Settles O48: the chosen block's next state replaces it in its place, and no other place is written. -/
theorem blocksOfAChipAreIsolated : Obligations.BlocksOfAChipAreIsolated := by
  intro chip chip' k h
  cases hk : chip[k]? with
  | none =>
    rw [Chip.stepAt_of_none hk] at h
    cases h
    exact ⟨rfl, fun _ _ => rfl, fun _ hs => nomatch hs⟩
  | some s =>
    obtain ⟨t, ht⟩ := everyStateHasANextState s
    obtain ⟨hlt, _⟩ := List.getElem?_eq_some_iff.1 hk
    rw [Chip.stepAt_of_step hk ht] at h
    cases h
    refine ⟨List.length_set, fun l hl => List.getElem?_set_ne hl.symm, ?_⟩
    rintro _ ⟨⟩
    exact ⟨t, ht, List.getElem?_set_self hlt⟩

/-! ## The run of a failed request -/

/-- A waiting block after the entropy source has failed (41_seed_derivation R142, 60_exceptions R175). -/
def State.givenFailure (u : State) : State :=
  ((u.withPins EntropyAnswer.fail.pins).tick.raise .ent).withPins Pins.quiet

/-- In a run, a failure is given at the first edge at which it is asked for (log entry 18). -/
theorem Run.finish_failure {table : Table} {u : State} {answers : List EntropyAnswer} (hp : u.phase = .entWait)
    (ho : u.owed = none) (ha : answers.head? = some .fail) (budget : Nat) :
    Run.finish table (budget + 1) ⟨u, answers⟩ = Run.finish table budget ⟨u.givenFailure, answersLeft answers⟩ := by
  have hhead : answers.headD .never = .fail := by
    rw [List.headD_eq_head?_getD, ha, Option.getD_some]
  have hnext := next_of_request (table := table) (r := ⟨u, answers⟩) hp ho
  rw [hhead] at hnext
  exact finish_of_next (State.not_runOver_of_phase (by simp [hp])) hnext budget

/-- A failure sets `EENT`, ends the command and owes its answer; no other register is written (60_exceptions R175). -/
theorem State.registers_givenFailure (u : State) :
    u.givenFailure.registers = { u.registers with eent := true, phase := .idle, owed := some ⟨.ent, 0#64⟩ } := by
  simp [State.givenFailure, State.raise, State.registers, State.withPins, State.tick, Err.code]

/-- After its acceptance an `RSEED` that fails takes two steps: the failure, and the giving of its response (60_exceptions R175). -/
theorem Accepted.finish_failure {table : Table} {s u : State} {answers : List EntropyAnswer} (h : Accepted s u)
    (ha : answers.head? = some .fail) :
    Run.finish table 2 ⟨effect .rseed u, answers⟩ = some
      { endState := { u.registers with esrc := true, seedv := false, eent := true, phase := .idle, owed := none }
        observation := [⟨.ent, 0#64⟩] } := by
  have hhost : (effect .rseed u).givenFailure.host = [] := State.hostAfter_of_nil h.host
  have hresponses : (effect .rseed u).givenFailure.responses = [] := h.responses
  rw [Run.finish_failure (u := effect .rseed u) rfl h.owed ha 1, Run.finish_of_last_response _ rfl rfl hhost,
    hresponses, State.registers_givenFailure]
  rfl

/-- Settles O52: the three steps accept the `RSEED`, meet the failure and give its response. -/
theorem failedRseedEndsItsRun : Obligations.FailedRseedEndsItsRun := by
  intro table s d answers hready ha
  obtain ⟨hp, ho⟩ := State.cmdReady_iff.1 hready
  have hregisters : (Run.start s [(0x41#8, d)] answers).state.tick.registers = s.registers := rfl
  rw [Run.finish_start answers hready (i := .rseed) rfl (fun _ => rfl) 2,
    (Run.start_accepted 0x41#8 d answers hready).finish_failure ha, hregisters]
  simp [hp, ho]

end Sys2Proof.Machine
end

section
/-! PROOFS. Waiting, holding and what follows a failure (70_reset_and_hazards R190, R194, R195), and the runs of R207:
what a run that is over has answered, which runs end, and that a run has one end. -/

namespace Sys2Proof.Machine

/-! ## A ready engine with nothing presented -/

/-- A ready engine at whose port nothing is presented only lets the outside world go on (70_reset_and_hazards R190). -/
theorem stepWith_of_nothing_presented (table : Table) {s : State} (hr : s.pins.rst = false) (hp : s.phase = .idle)
    (ho : s.owed = none) (hc : s.presented = none) : stepWith table s = .next s.tick := by
  rw [stepWith_idle table hr ho hp]
  simp only [State.accept, hc]

/-- Settles O7: the micro-step of an idle engine at an empty port is a tick. -/
theorem idleEngineWaits : Obligations.IdleEngineWaits := fun _ =>
  stepWith_of_nothing_presented Config.sconst

/-! ## A busy engine looks at no command -/

/-- What the host presents does not reach the micro-step that waits for entropy. -/
theorem State.entropyStep_without_host (s : State) :
    State.entropyStep { s with host := [] } = { s.entropyStep with host := [] } := by
  simp only [State.entropyStep]
  cases s.pins.entAck
  · rfl
  · cases s.pins.entFail <;> rfl

/-- What the host presents does not reach the micro-step that examines a nibble. -/
theorem State.scanStep_without_host (s : State) :
    State.scanStep { s with host := [] } = { s.scanStep with host := [] } := by
  have hscanned : (State.scanned { s with host := [] }).full = s.scanned.full := rfl
  rcases s.scanStep_cases with ⟨hfull, h⟩ | ⟨hfull, hhalf, h⟩ | ⟨hfull, hhalf, h⟩ <;> rw [h, State.scanStep]
  · exact if_neg (by rw [hscanned, hfull]; decide)
  · exact (if_pos (hscanned.trans hfull)).trans (if_neg (by simp [hhalf]))
  · exact (if_pos (hscanned.trans hfull)).trans (if_pos hhalf)

/-- A step of a busy engine is, but for the port, that of the same engine with nothing presented
(70_reset_and_hazards R194). -/
theorem stepWith_without_host {table : Table} {s t : State} (hb : s.cmdReady = false)
    (h : stepWith table s = .next t) : stepWith table { s with host := [] } = .next { t with host := [] } := by
  have hready : s.owed = none → s.phase = .idle → False := fun ho hp => by
    simp [State.cmdReady_iff.2 ⟨hp, ho⟩] at hb
  rcases stepWith_cases h with ⟨hr, rfl⟩ | ⟨hr, r, ho, rfl⟩ | ⟨_, ho, hp, _⟩ | ⟨_, ho, hp, _⟩ | ⟨_, ho, hp, _⟩ |
    ⟨hr, ho, hp, rfl⟩ | ⟨hr, ho, hp, rfl⟩ | ⟨hr, ho, hp, rfl⟩ | ⟨hr, ho, hp, rfl⟩
  · exact stepWith_reset table (s := { s with host := [] }) hr
  · exact stepWith_deliver table (s := { s with host := [] }) hr ho
  · exact (hready ho hp).elim
  · exact (hready ho hp).elim
  · exact (hready ho hp).elim
  · rw [stepWith_entWait table (s := { s with host := [] }) hr ho hp, State.entropyStep_without_host]
  · exact stepWith_setup table (s := { s with host := [] }) hr ho hp
  · exact stepWith_fetch table (s := { s with host := [] }) hr ho hp
  · rw [stepWith_scan table (s := { s with host := [] }) hr ho hp, State.scanStep_without_host]

/-- Whatever a step does, the host has made its move (10_state R32, 70_reset_and_hazards R208). -/
theorem stepWith_host {table : Table} {s t : State} (h : stepWith table s = .next t) : t.host = s.hostAfter := by
  rcases stepWith_cases h with ⟨_, rfl⟩ | ⟨_, r, _, rfl⟩ | ⟨_, _, _, _, rfl⟩ | ⟨_, _, _, _, _, i, _, _, he⟩ |
    ⟨_, _, _, _, _, _, _, rfl⟩ | ⟨_, _, hp, rfl⟩ | ⟨_, _, _, rfl⟩ | ⟨_, _, _, rfl⟩ | ⟨_, _, _, rfl⟩
  · rfl
  · rfl
  · rfl
  · exact (exec_sameHidden he).host
  · rfl
  · exact (State.entropyStep_frame hp).host
  · rfl
  · rfl
  · exact s.scanStep_frame.host

/-- Settles O8: a busy engine accepts nothing, holds the command, and steps as it would with an empty port. -/
theorem presentedCommandIsHeldWhileBusy : Obligations.PresentedCommandIsHeldWhileBusy := by
  intro s t op d rest hbusy hh h
  have hb : s.cmdReady = false := by simpa [State.busy] using hbusy
  refine ⟨by simp [State.accepts, hb], ?_, { t with host := [] }, stepWith_without_host hb h, rfl⟩
  rw [stepWith_host h, State.hostAfter_of_busy hb hh, hh]

/-! ## A failed request constructs nothing -/

/-- An `INITS` presented to a ready engine that holds no seed raises `INV` (40_core_generator R104). -/
theorem stepWith_inits_of_no_seed (table : Table) {s : State} {d : Word} {rest : List HostMove}
    (hr : s.pins.rst = false) (hready : s.cmdReady = true) (hseedv : s.seedv = false)
    (hh : s.host = .issue 0x50#8 d :: rest) : stepWith table s = .next (s.tick.raise .inv) := by
  obtain ⟨hp, ho⟩ := State.cmdReady_iff.1 hready
  have hd : decode 0x50#8 d = .command .inits := rfl
  rw [stepWith_idle table hr ho hp, State.accept]
  simp only [State.presented, hh, hd]
  exact exec_of_missing (i := .inits) hseedv

/-- Settles O35: the failure owes `ENT`, the next step gives it, and the `INITS` then finds no seed. -/
theorem failedEntropyNeverConstructs : Obligations.FailedEntropyNeverConstructs := by
  intro s d rest hp ho hseedv hnr hack hfail hh
  have hfailed : stepWith Config.sconst s = .next (s.tick.raise .ent) := by
    rw [stepWith_entWait _ hnr.1 ho hp, State.entropyStep, if_pos hack, if_pos hfail]
  have hhost : (s.tick.raise .ent).host = .issue 0x50#8 d :: rest :=
    State.hostAfter_of_busy (State.cmdReady_of_entWait hp) hh
  obtain ⟨t, ht⟩ : ∃ t, t = (s.tick.raise .ent).tick.deliver ⟨.ent, 0#64⟩ := ⟨_, rfl⟩
  have hgiven : stepWith Config.sconst (s.tick.raise .ent) = .next t := by
    rw [ht]
    exact stepWith_deliver _ hnr.tick.1 rfl
  have hhost' : t.host = .issue 0x50#8 d :: rest := by
    rw [ht]
    exact State.hostAfter_of_busy rfl hhost
  have hready : t.cmdReady = true := by simp [ht, State.cmdReady]
  have hinits : stepWith Config.sconst t = .next (t.tick.raise .inv) :=
    stepWith_inits_of_no_seed _ (by rw [ht]; exact hnr.tick.tick.1) hready (by simp [ht, hseedv]) hhost'
  refine ⟨t.tick.raise .inv, by simp only [State.afterWith, hfailed, hgiven, hinits], ?_, ?_, ?_, ?_, ?_, ?_, ?_,
    ?_, ?_, rfl, ?_, State.hostAfter_of_ready hready hhost'⟩
  all_goals simp [ht, hseedv]

/-! ## What follows the end of a run -/

/-- A host that has only waits left presents nothing, now and after its move. -/
theorem State.nothing_presented_of_waits {s : State} (h : ∀ m ∈ s.host, m = .wait) :
    s.presented = none ∧ ∀ m ∈ s.hostAfter, m = .wait := by
  cases hh : s.host with
  | nil => simp [State.presented, State.hostAfter, hh]
  | cons m rest =>
    rw [hh, List.forall_mem_cons] at h
    obtain ⟨rfl, hrest⟩ := h
    simpa [State.presented, State.hostAfter, hh] using hrest

@[simp] theorem State.runOver_withPins (s : State) (p : Pins) : (s.withPins p).runOver = s.runOver := rfl

/-- A block whose run is over ticks, and its run stays over (70_reset_and_hazards R190). -/
theorem stepWith_of_over (table : Table) {s : State} (hr : s.pins.rst = false) (hover : s.runOver = true) :
    stepWith table s = .next s.tick ∧ s.tick.runOver = true := by
  obtain ⟨hwaits, hp, ho⟩ := s.runOver_iff.1 hover
  obtain ⟨hc, hwaits'⟩ := State.nothing_presented_of_waits hwaits
  exact ⟨stepWith_of_nothing_presented table hr hp ho hc, s.tick.runOver_iff.2 ⟨hwaits', hp, ho⟩⟩

/-- A step of a run that is over leaves it over, and leaves its end (70_reset_and_hazards R207). -/
theorem Run.next_of_over (table : Table) {r : Run} (hover : r.state.runOver = true) :
    ∃ r', r.next table = some r' ∧ r'.state.runOver = true ∧ r'.ending = r.ending := by
  obtain ⟨hstep, hover'⟩ := stepWith_of_over table (s := r.state.withPins r.pins) r.pins_rst hover
  exact ⟨_, next_of_step hstep, by simpa using hover', by simp [Run.ending]⟩

/-- Settles O54: a larger budget finds the same end, and a step after the end is a tick. -/
theorem runHasOneEnd : Obligations.RunHasOneEnd :=
  ⟨fun _ _ _ _ _ _ => Run.finish_unique, fun table _ => Run.next_of_over table⟩

/-! ## The run that is never answered -/

theorem answersLeft_of_never {answers : List EntropyAnswer} (h : answers.headD .never = .never) :
    answersLeft answers = answers := by
  cases answers with
  | nil => rfl
  | cons a rest =>
    cases h
    rfl

/-- A run that waits for an answer that never comes has no end (60_exceptions R180). -/
theorem Run.finish_of_unanswered (table : Table) (budget : Nat) {u : State} {answers : List EntropyAnswer}
    (hp : u.phase = .entWait) (ho : u.owed = none) (ha : answers.headD .never = .never) :
    Run.finish table budget ⟨u, answers⟩ = none := by
  induction budget generalizing u with
  | zero => simp [Run.finish, State.runOver, hp]
  | succ budget ih =>
    have hnext := next_of_request (table := table) (r := ⟨u, answers⟩) hp ho
    have hwait : (u.withPins EntropyAnswer.never.pins).entropyStep = (u.withPins EntropyAnswer.never.pins).tick :=
      if_neg Bool.false_ne_true
    rw [ha, hwait, answersLeft_of_never ha] at hnext
    rw [finish_of_next (State.not_runOver_of_phase (by simp [hp])) hnext]
    exact ih (by simp [hp]) (by simp [ho])

/-- Settles O53: the `RSEED` is accepted, and its request stands with every budget. -/
theorem unansweredRunHasNoEnd : Obligations.UnansweredRunHasNoEnd := by
  intro table s d rest answers hready ha budget
  obtain ⟨hp, ho⟩ := State.cmdReady_iff.1 hready
  have hnever : answers.headD .never = .never := by
    rw [List.headD_eq_head?_getD]
    rcases ha with ha | ha <;> rw [ha] <;> rfl
  have hhost : (Run.start s ((0x41#8, d) :: rest) answers).state.host = .issue 0x41#8 d :: commandMoves rest := rfl
  have hover := State.not_runOver_of_issue hhost
  have hnext : (Run.start s ((0x41#8, d) :: rest) answers).next table = some
      ⟨effect .rseed (Run.start s ((0x41#8, d) :: rest) answers).state.tick, answers⟩ :=
    Run.next_of_command hp ho (State.withPins_quiet _) hhost rfl (exec_of_needs rfl)
  cases budget with
  | zero => simp [Run.finish, hover]
  | succ budget =>
    rw [Run.finish_of_next hover hnext]
    exact Run.finish_of_unanswered table budget rfl ho hnever

/-! ## What a run that is over has answered -/

/-- A run that has an end is over, or goes on to it with a step. -/
theorem Run.finish_cases {table : Table} {budget : Nat} {r : Run} {e : RunEnd} (h : r.finish table budget = some e) :
    (r.state.runOver = true ∧ e = r.ending) ∨
    ∃ b t, budget = b + 1 ∧ stepWith table (r.state.withPins r.pins) = .next t ∧
      ∃ answers, Run.finish table b ⟨t.withPins Pins.quiet, answers⟩ = some e := by
  cases hover : r.state.runOver with
  | true =>
    rw [finish_of_over hover] at h
    exact .inl ⟨rfl, (Option.some.inj h).symm⟩
  | false =>
    cases budget with
    | zero => simp [Run.finish, hover] at h
    | succ b =>
      obtain ⟨t, ht⟩ := stepWith_next table (r.state.withPins r.pins)
      rw [finish_of_next hover (next_of_step ht)] at h
      exact .inr ⟨b, t, rfl, ht, _, h⟩

/-- What every step of a block in a run keeps, wherever its pins stand, holds at the end of the run
(70_reset_and_hazards R207, log entry 18). -/
theorem Run.exists_over_of_finish {table : Table} {P : State → Prop} (hpins : ∀ s p, P s → P (s.withPins p))
    (hstep : ∀ s t, s.pins.rst = false → P s → stepWith table s = .next t → P t) {budget : Nat} {r : Run} {e : RunEnd}
    (hr : P r.state) (he : r.finish table budget = some e) :
    ∃ r' : Run, P r'.state ∧ r'.state.runOver = true ∧ e = r'.ending := by
  induction budget generalizing r with
  | zero =>
    rcases finish_cases he with hover | ⟨_, _, hb, _⟩
    · exact ⟨r, hr, hover⟩
    · cases hb
  | succ budget ih =>
    rcases finish_cases he with hover | ⟨_, t, hb, ht, answers, he'⟩
    · exact ⟨r, hr, hover⟩
    · cases hb
      exact ih (hpins _ _ (hstep _ _ r.pins_rst (hpins _ _ hr) ht)) he'

/-- The table is read in `SETUP` alone: any other step is that of the hardware (20_memory R51). -/
theorem step_or_setup {table : Table} {s t : State} (h : stepWith table s = .next t) :
    step s = .next t ∨ s.phase = .setup ∧ t = s.setupStep table := by
  have hidle : s.pins.rst = false → s.owed = none → s.phase = .idle → step s = .next t := fun hr ho hp =>
    (stepWith_idle _ hr ho hp).trans ((stepWith_idle table hr ho hp).symm.trans h)
  rcases stepWith_cases h with ⟨hr, rfl⟩ | ⟨hr, r, ho, rfl⟩ | ⟨hr, ho, hp, _⟩ | ⟨hr, ho, hp, _⟩ | ⟨hr, ho, hp, _⟩ |
    ⟨hr, ho, hp, rfl⟩ | ⟨_, _, hp, ht⟩ | ⟨hr, ho, hp, rfl⟩ | ⟨hr, ho, hp, rfl⟩
  · exact .inl (stepWith_reset _ hr)
  · exact .inl (stepWith_deliver _ hr ho)
  · exact .inl (hidle hr ho hp)
  · exact .inl (hidle hr ho hp)
  · exact .inl (hidle hr ho hp)
  · exact .inl (stepWith_entWait _ hr ho hp)
  · exact .inr ⟨hp, ht⟩
  · exact .inl (stepWith_fetch _ hr ho hp)
  · exact .inl (stepWith_scan _ hr ho hp)

/-- A response is owed by an idle engine alone (10_state R31, R32): the one part of the invariant that counting the
responses of a run needs, and that every ready block meets. -/
def State.OwedIdle (s : State) : Prop := s.owed ≠ none → s.phase = .idle

theorem State.OwedIdle.of_none {s : State} (ho : s.owed = none) : s.OwedIdle := fun h => absurd ho h

theorem effect_owedIdle {i : Instr} {s : State} (hp : s.phase = .idle) (ho : s.owed = none) :
    (effect i s).OwedIdle := by
  cases hd : startsDerivation i with
  | true => rcases eq_of_startsDerivation hd with ⟨n, rfl⟩ | rfl <;> exact .of_none ho
  | false =>
    obtain ⟨_, _, _, hphase, _⟩ := effect_of_no_derivation hd s
    exact fun _ => hphase.trans hp

/-- Every step ends with no response owed beside a running command: one is owed from the edge at which its command ends
(10_state R31, R32). -/
theorem stepWith_owedIdle {table : Table} {s t : State} (h : stepWith table s = .next t) : t.OwedIdle := by
  rcases stepWith_cases h with ⟨_, rfl⟩ | ⟨_, r, _, rfl⟩ | ⟨_, ho, _, _, rfl⟩ | ⟨_, ho, hp, _, _, i, _, _, he⟩ |
    ⟨_, _, _, _, _, _, _, rfl⟩ | ⟨_, ho, _, rfl⟩ | ⟨_, ho, _, rfl⟩ | ⟨_, ho, _, rfl⟩ | ⟨_, ho, _, rfl⟩
  · exact .of_none rfl
  · exact .of_none rfl
  · exact .of_none ho
  · rcases exec_cases he with ⟨_, rfl⟩ | ⟨_, rfl⟩
    · exact effect_owedIdle hp ho
    · exact fun _ => rfl
  · exact fun _ => rfl
  · rcases s.entropyStep_cases with ⟨_, h⟩ | ⟨_, _, h⟩ | ⟨_, _, h⟩ <;> rw [h]
    · exact .of_none ho
    · exact fun _ => rfl
    · exact .of_none ho
  · exact .of_none ho
  · exact .of_none ho
  · rcases s.scanStep_cases with ⟨_, h⟩ | ⟨_, _, h⟩ | ⟨_, _, h⟩ <;> rw [h]
    · exact .of_none ho
    · exact .of_none ho
    · exact fun _ => rfl

/-- A block within a run of `n` commands: each one has been answered, is in flight, or is still to be presented
(70_reset_and_hazards R207). -/
structure Answering (n : Nat) (s : State) : Prop where
  owedIdle : s.OwedIdle
  commands : .wait ∉ s.host
  balance : s.responses.length + (if s.cmdReady then 0 else 1) + s.host.length = n

/-- A busy engine holds the next command of a host that does not wait (70_reset_and_hazards R194). -/
theorem State.hostAfter_of_held {s : State} (hb : s.cmdReady = false) (h : .wait ∉ s.host) : s.hostAfter = s.host := by
  cases hh : s.host with
  | nil => exact State.hostAfter_of_nil hh
  | cons m rest =>
    cases m with
    | wait => exact absurd (by simp [hh]) h
    | issue op d => exact State.hostAfter_of_busy hb hh

/-- Without waits, a move of the host is the acceptance of its next command (10_state R32). -/
theorem State.hostAfter_of_commands {s : State} (h : .wait ∉ s.host) :
    .wait ∉ s.hostAfter ∧ s.hostAfter.length + (if s.accepts then 1 else 0) = s.host.length := by
  cases hready : s.cmdReady with
  | false => simp [State.hostAfter_of_held hready h, State.accepts, hready, h]
  | true =>
    cases hh : s.host with
    | nil => simp [State.hostAfter, State.accepts, State.presented, hh]
    | cons m rest =>
      rw [hh, List.mem_cons, not_or] at h
      obtain ⟨hm, hrest⟩ := h
      cases m with
      | wait => exact absurd rfl hm
      | issue op d =>
        simp [State.hostAfter_of_ready hready hh, State.accepts, State.presented, hready, hh, hrest]

/-- A step of a run accepts a command, gives a response, or does neither; the count stays (10_state R32). -/
theorem Answering.step {table : Table} {n : Nat} {s t : State} (ha : Answering n s) (hr : s.pins.rst = false)
    (h : stepWith table s = .next t) : Answering n t := by
  obtain ⟨hwait, hlength⟩ := State.hostAfter_of_commands ha.commands
  have hbalance := ha.balance
  refine ⟨stepWith_owedIdle h, (stepWith_host h).symm ▸ hwait, ?_⟩
  rw [stepWith_host h]
  rcases step_or_setup h with hs | ⟨hp, rfl⟩
  · rcases balance_cases hr hs with ⟨hacc, hready, hbusy, hresp⟩ | ⟨r, ho, ho', hp', hresp⟩ | ⟨hacc, hsame, hresp⟩
    · simp only [hacc, hready, hbusy, hresp, if_true, Bool.false_eq_true, if_false] at hlength hbalance ⊢
      omega
    · have hbusy : s.cmdReady = false := State.cmdReady_eq_false_iff.2 (.inr (by simp [ho]))
      have hready : t.cmdReady = true := State.cmdReady_iff.2 ⟨hp'.trans (ha.owedIdle (by simp [ho])), ho'⟩
      simp only [State.accepts, hbusy, hready, hresp, Bool.false_and, Bool.false_eq_true, if_true, if_false,
        List.length_append, List.length_singleton] at hlength hbalance ⊢
      omega
    · simp only [hacc, hsame, hresp, Bool.false_eq_true, if_false] at hlength hbalance ⊢
      omega
  · obtain ⟨hacc, hsame, hresp⟩ := StaysInFlight.of_phase (s := s) (t := s.setupStep table) ⟨rfl, rfl⟩ (by simp [hp])
    simp only [hacc, hsame, hresp, Bool.false_eq_true, if_false] at hlength hbalance ⊢
    omega

theorem commandMoves_length (script : List (Byte × Word)) : (commandMoves script).length = script.length :=
  List.length_map _

theorem wait_notMem_commandMoves (script : List (Byte × Word)) : .wait ∉ commandMoves script := by
  simp [commandMoves]

/-- A run starts with every command of its script still to be presented. -/
theorem Run.start_answering {s : State} (hready : s.cmdReady = true) (script : List (Byte × Word))
    (answers : List EntropyAnswer) : Answering script.length (Run.start s script answers).state where
  owedIdle := .of_none (State.cmdReady_iff.1 hready).2
  commands := wait_notMem_commandMoves script
  balance := by
    have hstart : (Run.start s script answers).state.cmdReady = true := hready
    have hnone : (Run.start s script answers).state.responses = [] := rfl
    have hhost : (Run.start s script answers).state.host = commandMoves script := rfl
    simp [hstart, hnone, hhost, commandMoves_length]

/-- Where a run of `n` commands is over, each has been answered. -/
theorem Answering.responses_length {n : Nat} {s : State} (h : Answering n s) (hover : s.runOver = true) :
    s.responses.length = n := by
  obtain ⟨hwaits, hp, ho⟩ := s.runOver_iff.1 hover
  have hhost : s.host = [] := List.eq_nil_iff_forall_not_mem.2 fun m hm => h.commands (hwaits m hm ▸ hm)
  simpa [State.cmdReady_iff.2 ⟨hp, ho⟩, hhost] using h.balance

/-- Settles O49: every step keeps the count, and at the end nothing is in flight or still to be presented. -/
theorem endedRunHasAnsweredEveryCommand : Obligations.EndedRunHasAnsweredEveryCommand := by
  intro table s script answers budget e hready he
  obtain ⟨r, hanswering, hover, rfl⟩ := Run.exists_over_of_finish (P := Answering script.length)
    (fun _ _ h => ⟨h.owedIdle, h.commands, h.balance⟩) (fun _ _ hr h hs => h.step hr hs)
    (Run.start_answering hready script answers) he
  obtain ⟨_, hp, ho⟩ := r.state.runOver_iff.1 hover
  exact ⟨hanswering.responses_length hover, hp, ho, by simp [Run.ending, State.entReq, hp]⟩

/-! ## Scripts in which nothing is derived -/

/-- The state in which a ready block has accepted a byte that starts no derivation: an answer is owed at once, with the
engine idle, and no register of a derivation is written (41_seed_derivation R141, 60_exceptions R172). -/
structure AnsweredAtOnce (s t : State) : Prop where
  hidden : SameHidden s t
  nreg : t.nreg = s.nreg
  phase : t.phase = .idle
  owed : ∃ q, t.owed = some q

theorem raise_answeredAtOnce (e : Err) (s : State) : AnsweredAtOnce s (s.raise e) :=
  ⟨raise_sameHidden e s, rfl, rfl, _, rfl⟩

theorem exec_answeredAtOnce {i : Instr} {s t : State} (hd : startsDerivation i = false) (hp : s.phase = .idle)
    (h : exec i s = .next t) : AnsweredAtOnce s t := by
  rcases exec_cases h with ⟨_, rfl⟩ | ⟨_, rfl⟩
  · obtain ⟨hnreg, _, _, hphase, v, howed⟩ := effect_of_no_derivation hd s
    exact ⟨effect_sameHidden i s, hnreg, hphase.trans hp, _, howed⟩
  · exact raise_answeredAtOnce .inv s

/-- Only the bytes of `DERIVE` and `RSEED` start a derivation (30_encoding R72). -/
theorem startsDerivation_of_decode {op : Byte} {d : Word} {i : Instr} (h : decode op d = .command i)
    (hderive : op ≠ 0x40#8) (hrseed : op ≠ 0x41#8) : startsDerivation i = false := by
  rw [← Bool.not_eq_true]
  intro hs
  rcases eq_of_startsDerivation hs with ⟨n, rfl⟩ | rfl
  · exact hderive (byte_of_decode h)
  · exact hrseed (byte_of_decode h)

/-- A byte presented to a ready block in a run, legal or not, is answered at once where it starts no derivation. -/
theorem Run.next_answeredAtOnce (table : Table) {s : State} {op : Byte} {d : Word} {rest : List HostMove}
    (answers : List EntropyAnswer) (hready : s.cmdReady = true) (hq : s.Quiet) (hh : s.host = .issue op d :: rest)
    (hderive : op ≠ 0x40#8) (hrseed : op ≠ 0x41#8) :
    ∃ t, Run.next table ⟨s, answers⟩ = some ⟨t, answers⟩ ∧ AnsweredAtOnce s.tick t := by
  obtain ⟨hp, ho⟩ := State.cmdReady_iff.1 hready
  cases hd : decode op d with
  | illegal => exact ⟨_, next_of_illegal hp ho hq hh hd, raise_answeredAtOnce .ill s.tick⟩
  | command i =>
    obtain ⟨t, ht⟩ := exec_next i s.tick
    exact ⟨t, next_of_command hp ho hq hh hd ht,
      exec_answeredAtOnce (startsDerivation_of_decode hd hderive hrseed) hp ht⟩

/-- A ready block of a run that is about to be presented the commands of `script`. -/
structure AboutToRun (script : List (Byte × Word)) (s : State) : Prop where
  ready : s.cmdReady = true
  quiet : s.Quiet
  host : s.host = commandMoves script

/-- A command that starts no derivation takes two steps of a run, its acceptance and the giving of its response; then
the block is ready for the next (70_reset_and_hazards R207, log entry 1). -/
theorem AboutToRun.cons {table : Table} {c : Byte × Word} {script : List (Byte × Word)} {s : State}
    (h : AboutToRun (c :: script) s) (answers : List EntropyAnswer) (hc : c.1 ≠ 0x40#8 ∧ c.1 ≠ 0x41#8) :
    ∃ t, AboutToRun script t ∧ t.responses.length = s.responses.length + 1 ∧ t.seed = s.seed ∧ t.nreg = s.nreg ∧
      ∀ budget, Run.finish table (budget + 2) ⟨s, answers⟩ = Run.finish table budget ⟨t, answers⟩ := by
  obtain ⟨u, hu, hanswered⟩ := Run.next_answeredAtOnce table answers h.ready h.quiet h.host hc.1 hc.2
  obtain ⟨q, howed⟩ := hanswered.owed
  have hgiven := Run.next_of_owed (table := table) (r := ⟨u, answers⟩) howed
  have hhost : u.host = commandMoves script :=
    hanswered.hidden.host.trans (State.hostAfter_of_ready h.ready h.host)
  have hheld : (u.withPins Pins.quiet).hostAfter = u.host :=
    State.hostAfter_of_held (State.cmdReady_eq_false_iff.2 (.inr (by simp [howed])))
      (hhost ▸ wait_notMem_commandMoves script)
  refine ⟨((u.withPins Pins.quiet).tick.deliver q).withPins Pins.quiet,
    ⟨by simp [State.cmdReady, hanswered.phase], State.withPins_quiet _, by simp [hheld, hhost]⟩,
    by simp [hanswered.hidden.responses], by simp [hanswered.hidden.seed], by simp [hanswered.nreg], fun budget => ?_⟩
  rw [Run.finish_of_next (State.not_runOver_of_issue h.host) hu,
    Run.finish_of_next (State.not_runOver_of_owed howed) hgiven]

/-- By induction on the script, two steps a command. -/
theorem AboutToRun.finish (table : Table) {script : List (Byte × Word)} {s : State} (h : AboutToRun script s)
    (answers : List EntropyAnswer) (hscript : ∀ c ∈ script, c.1 ≠ 0x40#8 ∧ c.1 ≠ 0x41#8) :
    ∃ e, Run.finish table (2 * script.length) ⟨s, answers⟩ = some e ∧
      e.observation.length = s.responses.length + script.length ∧ e.endState.seed = s.seed ∧
      e.endState.nreg = s.nreg := by
  induction script generalizing s with
  | nil =>
    obtain ⟨hp, ho⟩ := State.cmdReady_iff.1 h.ready
    have hover : s.runOver = true := s.runOver_iff.2 ⟨by simp [h.host, commandMoves], hp, ho⟩
    exact ⟨_, Run.finish_of_over (r := ⟨s, answers⟩) hover _, by simp [Run.ending]⟩
  | cons c script ih =>
    rw [List.forall_mem_cons] at hscript
    obtain ⟨hc, hrest⟩ := hscript
    obtain ⟨t, ht, hlength, hseed, hnreg, hrun⟩ := h.cons (table := table) answers hc
    obtain ⟨e, he, hobs, hseed', hnreg'⟩ := ih ht hrest
    refine ⟨e, (hrun _).trans he, ?_, hseed'.trans hseed, hnreg'.trans hnreg⟩
    rw [hobs, hlength, List.length_cons]
    omega

/-- Settles O50: the run starts ready for its script, with nothing observed. -/
theorem scriptsWithoutDerivationsEnd : Obligations.ScriptsWithoutDerivationsEnd := by
  intro table s script answers hready hscript
  have hstart : AboutToRun script (Run.start s script answers).state := ⟨hready, State.withPins_quiet _, rfl⟩
  obtain ⟨e, he, hobs, hseed, hnreg⟩ := hstart.finish table answers hscript
  exact ⟨e, he, hobs.trans (Nat.zero_add _), hseed, hnreg⟩

end Sys2Proof.Machine
end
